-- ==== Sys2Proof/Word.lean ====
section
/-! DEFINITION. The word, the byte and the register file of the checking interpreter (00_scope.md R8, R9;
43_reference_semantics.md R67). -/

namespace Sys2Proof

/-- `Word`: an unsigned 32-bit value (R8, R13). -/
abbrev Word := BitVec 32

/-- One byte of the serialised image (R29). -/
abbrev Byte := BitVec 8

/-- The eight 32-bit registers `x[0..7]` of the checking interpreter (R67). -/
abbrev RegFile := Vector Word 8

end Sys2Proof
end

