-- ==== Sys2Proof/Config.lean ====
section
/-! DEFINITION. The configuration record of 10_state.md R23, the default set `UM_DEFAULT` of 00_scope.md R10, and
the values the spec leaves free. The record is an argument of every function that reads it: it is fixed when the
block is built and is not state (R23, R85). -/

namespace Sys2Proof

/-- `Config = {OPC_CMOV, OPC_NAND, OPC_ADD, OPC_LOADVAL}`, four 4-bit opcode codes (R10, R23). -/
structure Config where
  opcCmov    : BitVec 4
  opcNand    : BitVec 4
  opcAdd     : BitVec 4
  opcLoadval : BitVec 4
deriving DecidableEq, Repr

/-- `UM_DEFAULT` (R10). PRESUMED, unsafe: the spec marks these values as general knowledge (log 1). -/
def Config.umDefault : Config where
  opcCmov    := 0
  opcNand    := 6
  opcAdd     := 3
  opcLoadval := 13

/-- The four codes are pairwise distinct (R10); a configuration that is not valid is refused (R87). -/
def Config.valid (cfg : Config) : Bool :=
  cfg.opcCmov != cfg.opcNand && cfg.opcCmov != cfg.opcAdd && cfg.opcCmov != cfg.opcLoadval &&
  cfg.opcNand != cfg.opcAdd && cfg.opcNand != cfg.opcLoadval && cfg.opcAdd != cfg.opcLoadval

/-- `IMM_SHAPE = {OPC_LOADVAL}`: the codes of the immediate shape (R11). -/
def Config.immShape (cfg : Config) (opcode : Nat) : Bool :=
  opcode == cfg.opcLoadval.toNat

/-- The text of the `n`-th report to the error callback: a free value (R77: "The message text is not specified and
a model must not depend on it"). Safe: nothing constrains it (log 9). -/
opaque Config.errorMessage : Nat → String

/-- The opaque error-state handle the driver gave with its callback: a free value (R77). Safe (log 9). -/
opaque Config.errorHandle : Nat

end Sys2Proof
end

