-- ==== Sys2Proof/Syntax.lean ====
section
/-! DEFINITION. The four native instructions of spec/opcode_table.json, the requests of the block and their
results (10_state.md R17), and the error kinds (60_exceptions.md R75). -/

namespace Sys2Proof

/-- The native instructions, one constructor per row of spec/opcode_table.json. Operands are the unbounded numbers
the encoder is given (92_eei_decisions.md D5); `Instr.wellFormed` checks them against their fields. -/
inductive Instr where
  /-- CMOV (43_reference_semantics.md R72), three-register form `CMOV(a, b, c)`. -/
  | cmov (a b c : Nat)
  /-- ADD (R71), three-register form `ADD(a, b, c)`. -/
  | add (a b c : Nat)
  /-- NAND (R70), three-register form `NAND(a, b, c)`. -/
  | nand (a b c : Nat)
  /-- LOADVAL (R69), an immediate load of `imm` into register `a`. -/
  | loadval (a imm : Nat)
deriving DecidableEq, Repr

/-- The requests of the block's interface with their argument types (R17, D5). -/
inductive Request where
  | extract (word : Word) (width lsb : Nat)
  | insert (word : Word) (width lsb value : Nat)
  | encReg (opcode dest srcA srcB : Nat)
  | encImm (dest value25 : Nat)
  | loadLiteral (dst : Nat) (value32 : Word) (scratch : Option Nat)
deriving DecidableEq, Repr

/-- The five error kinds (R75). -/
inductive ErrorKind where
  | immediateOutOfRange
  | codecContractViolation
  | opcodeShapeMismatch
  | missingScratchRegister
  | scratchAliasesDestination
deriving DecidableEq, Repr

/-- The classes of R75. -/
inductive ErrorClass where
  | fatalInternal
  | userFacing
deriving DecidableEq, Repr

/-- The operands that R54 and R59 name in the recorded info. -/
inductive OperandName where
  | op
  | dst
  | scratch
deriving DecidableEq, Repr

/-- The recorded info of `ImmediateOutOfRange`: the field and the value (R75). -/
inductive RangeInfo where
  /-- INSERT's `{width, lsb, value}` (R51); also a register or immediate too wide inside an encoder (R54, R55). -/
  | field (width lsb value : Nat)
  /-- `{field: op | dst | scratch, value}` (R54, R59). -/
  | operand (name : OperandName) (value : Nat)
deriving DecidableEq, Repr

/-- `Fatal(kind, info)`: a fatal internal fault with its recorded info (R13, R75, R76). -/
inductive Fatal where
  | immediateOutOfRange (info : RangeInfo)
  | codecContractViolation (width lsb : Nat)
  | opcodeShapeMismatch (opcode : Nat)
deriving DecidableEq, Repr

/-- `Error(kind)`: a user-facing error of LOAD_LITERAL (R63, R75, R77). -/
inductive UserError where
  | missingScratchRegister
  | scratchAliasesDestination
deriving DecidableEq, Repr

/-- What a request returns when it does not fault (R17, R77). -/
inductive Reply where
  /-- EXTRACT's value (R50). -/
  | value (v : Nat)
  /-- The word of INSERT, ENC_REG or ENC_IMM (R51, R54, R55). -/
  | word (w : Word)
  /-- The expansion of LOAD_LITERAL (R58). -/
  | expansion (ws : List Word)
  /-- A user-facing error with an empty word sequence (R77). -/
  | error (e : UserError)
deriving DecidableEq, Repr

/-- `CALLBACK_OUTCOME` (R78). -/
inductive CallbackOutcome where
  | continues
  | fails
deriving DecidableEq, Repr

/-- One call of the injected error callback: its handle and message, and what it returned (R77, R78). -/
structure Report where
  handle  : Nat
  error   : UserError
  message : String
  outcome : CallbackOutcome
deriving DecidableEq, Repr

end Sys2Proof
end

