-- ==== Sys2Proof/Machine/Codec.lean ====
section
/-! DEFINITION. The bit-field codec (40_field_codec.md R49 to R53), the one place of bit arithmetic (R53), and the
big-endian byte view of words (20_memory.md R29, R30). -/

namespace Sys2Proof.Machine

/-- `mask(width) = 2^width - 1` (R49). -/
def mask (width : Nat) : Nat := 2 ^ width - 1

/-- The field `word[lsb+width-1 : lsb]` as an unsigned number (R12, R50). -/
def fieldValue (word : Word) (width lsb : Nat) : Nat := (word.toNat >>> lsb) % 2 ^ width

/-- `extractUnsigned(word, width, lsb)` (R50). -/
def extractUnsigned (word : Word) (width lsb : Nat) : Except Fatal Nat :=
  if 32 < width + lsb then .error (.codecContractViolation width lsb)
  else .ok (fieldValue word width lsb)

/-- `insertUnsigned(word, width, lsb, value)` (R51). -/
def insertUnsigned (word : Word) (width lsb value : Nat) : Except Fatal Word :=
  if 32 < width + lsb then .error (.codecContractViolation width lsb)
  else if 2 ^ width ≤ value then .error (.immediateOutOfRange (.field width lsb value))
  else
    let m : Word := BitVec.ofNat 32 (mask width <<< lsb)
    .ok ((word &&& ~~~m) ||| BitVec.ofNat 32 (value <<< lsb))

/-- The four bytes of a word, most significant first (R29). -/
def wordBytes (w : Word) : List Byte :=
  [w.extractLsb' 24 8, w.extractLsb' 16 8, w.extractLsb' 8 8, w.extractLsb' 0 8]

/-- The word whose bytes, most significant first, are given (R29 read backwards). -/
def wordOfBytes (b3 b2 b1 b0 : Byte) : Word := b3 ++ b2 ++ b1 ++ b0

/-- The serialised image of a word sequence: no header, length prefix or boundary marker (R30). -/
def serialize (ws : List Word) : List Byte := ws.flatMap wordBytes

end Sys2Proof.Machine
end

