-- ==== Sys2Proof/Machine/Encoder.lean ====
section
/-! DEFINITION. The instruction encoder (41_encoder.md R54 to R56) and the field view of a word
(30_encoding.md R46). Words are built only by insertions (40_field_codec.md R53). -/

namespace Sys2Proof.Machine

/-- `encodeRegisterOp(opcode, dest, srcA, srcB)` (R54); the order of the checks is R80's. -/
def encodeRegisterOp (cfg : Config) (opcode dest srcA srcB : Nat) : Except Fatal Word :=
  if 16 ≤ opcode then .error (.immediateOutOfRange (.operand .op opcode))
  else if cfg.immShape opcode then .error (.opcodeShapeMismatch opcode)
  else do
    let w ← insertUnsigned 0 4 28 opcode
    let w ← insertUnsigned w 3 6 dest
    let w ← insertUnsigned w 3 3 srcA
    insertUnsigned w 3 0 srcB

/-- `encodeImmediate(dest, value25)` (R55); it never truncates (90_conflicts.md C1). -/
def encodeImmediate (cfg : Config) (dest value25 : Nat) : Except Fatal Word := do
  let w ← insertUnsigned 0 4 28 cfg.opcLoadval.toNat
  let w ← insertUnsigned w 3 25 dest
  insertUnsigned w 25 0 value25

/-- The Complement sub-sequence `[NAND(dst, src, src)]` (R56). -/
def complement (cfg : Config) (dst src : Nat) : Except Fatal (List Word) := do
  let w ← encodeRegisterOp cfg cfg.opcNand.toNat dst src src
  return [w]

/-- What a consumer reads back from a word (R46). -/
inductive FieldView where
  | immediate (op a imm : Nat)
  | threeRegister (op a b c : Nat)
deriving DecidableEq, Repr

/-- The field view of a word, total on every word; bits `[27:9]` of a three-register word are not read (R46). -/
def fieldView (cfg : Config) (w : Word) : FieldView :=
  let op := fieldValue w 4 28
  if cfg.immShape op then .immediate op (fieldValue w 3 25) (fieldValue w 25 0)
  else .threeRegister op (fieldValue w 3 6) (fieldValue w 3 3) (fieldValue w 3 0)

end Sys2Proof.Machine
end

