-- ==== Sys2Proof/WellFormed.lean ====
section
/-! DEFINITION. Which instructions have an encoding: every operand fits its field (00_scope.md R8,
30_encoding.md R38, R40, R42). -/

namespace Sys2Proof

/-- A register identifier is an integer in `0..7` (R8, R42). -/
def registerFits (r : Nat) : Bool := decide (r < 8)

/-- An immediate fits the 25-bit unsigned field (R8, R41). -/
def immediateFits (v : Nat) : Bool := decide (v < 2 ^ 25)

/-- Every operand of the instruction fits its field. -/
def Instr.wellFormed : Instr → Bool
  | .cmov a b c => registerFits a && registerFits b && registerFits c
  | .add a b c => registerFits a && registerFits b && registerFits c
  | .nand a b c => registerFits a && registerFits b && registerFits c
  | .loadval a imm => registerFits a && immediateFits imm

end Sys2Proof
end

