-- ==== Sys2Proof/Decode.lean ====
section
/-! DEFINITION. The decoder of the checking interpreter (43_reference_semantics.md R68 over the field view of
30_encoding.md R46), total on words and on bytes, and after it the encoder of instructions (41_encoder.md R54, R55). -/

namespace Sys2Proof

open Sys2Proof.Machine

/-- Why a decoder refuses. -/
inductive DecodeError where
  /-- The opcode field is none of the four configured codes (R44, R68). -/
  | otherCode (w : Word)
  /-- Fewer than the four bytes of a word are left (R29, R37). -/
  | truncated
deriving DecidableEq, Repr

/-- The instruction a word stands for, or the refusal of its code (R68). -/
def decodeWord (cfg : Config) (w : Word) : Except DecodeError Instr :=
  match fieldView cfg w with
  | .immediate _ a imm => .ok (.loadval a imm)
  | .threeRegister op a b c =>
    if op = cfg.opcNand.toNat then .ok (.nand a b c)
    else if op = cfg.opcAdd.toNat then .ok (.add a b c)
    else if op = cfg.opcCmov.toNat then .ok (.cmov a b c)
    else .error (.otherCode w)

/-- The first instruction of a serialised image and the bytes after it: one word, most significant byte first
(R29, R37). -/
def decodeBytes (cfg : Config) : List Byte → Except DecodeError (Instr × List Byte)
  | b3 :: b2 :: b1 :: b0 :: rest => do
    let i ← decodeWord cfg (wordOfBytes b3 b2 b1 b0)
    return (i, rest)
  | _ => .error .truncated

/-- The word of an instruction: the encoder call R47 says its notation denotes. An operand too wide for its field
raises the encoder's fault. -/
def encode (cfg : Config) : Instr → Except Fatal Word
  | .cmov a b c => encodeRegisterOp cfg cfg.opcCmov.toNat a b c
  | .add a b c => encodeRegisterOp cfg cfg.opcAdd.toNat a b c
  | .nand a b c => encodeRegisterOp cfg cfg.opcNand.toNat a b c
  | .loadval a imm => encodeImmediate cfg a imm

/-- The first word of an instruction given as a number of `nbits` bits, bit 0 its least significant bit. -/
def tableWord (nbits w : Nat) : Word := BitVec.ofNat 32 (w % 2 ^ nbits)

/-- The instruction the decoder reads from the table word `w` of `nbits` bits, laid out as bytes in the image's
order, under `UM_DEFAULT`. -/
def decodeTableWord (nbits w : Nat) : Option Instr :=
  match decodeBytes Config.umDefault (wordBytes (tableWord nbits w)) with
  | .ok (i, _) => some i
  | .error _ => none

end Sys2Proof
end

