-- ==== Sys2Proof/Machine/Decomposer.lean ====
section
/-! DEFINITION. The 32-bit literal decomposer LoadLiteral (42_literal_decomposer.md R58 to R65). -/

namespace Sys2Proof.Machine

/-- The three branches of R60. -/
inductive LiteralPath where
  /-- Path 1: the value fits in 25 unsigned bits. -/
  | direct
  /-- Path 2: its complement fits in 25 unsigned bits. -/
  | complemented
  /-- Path 3: neither fits. -/
  | wide
deriving DecidableEq, Repr

/-- Path selection, from the value alone and in the order of R60. -/
def literalPath (value32 : Word) : LiteralPath :=
  if value32.toNat < 2 ^ 25 then .direct
  else if (~~~value32).toNat < 2 ^ 25 then .complemented
  else .wide

/-- The operand checks that come before any path (R59): `dst` first, then a supplied `scratch`. -/
def checkLiteralOperands (dst : Nat) (scratch : Option Nat) : Except Fatal Unit :=
  if 8 ≤ dst then .error (.immediateOutOfRange (.operand .dst dst))
  else match scratch with
    | some s => if 8 ≤ s then .error (.immediateOutOfRange (.operand .scratch s)) else .ok ()
    | none => .ok ()

/-- Path 1: one immediate-load (R61). -/
def directExpansion (cfg : Config) (dst : Nat) (value32 : Word) : Except Fatal (List Word) := do
  let w ← encodeImmediate cfg dst value32.toNat
  return [w]

/-- Path 2: an immediate-load of the complement, then Complement(dst, dst) (R62). -/
def complementExpansion (cfg : Config) (dst : Nat) (value32 : Word) : Except Fatal (List Word) := do
  let w ← encodeImmediate cfg dst (~~~value32).toNat
  let tail ← complement cfg dst dst
  return w :: tail

/-- `high7 = value32[31:25]` (R64). -/
def high7 (value32 : Word) : Nat := fieldValue value32 7 25

/-- `low25 = value32[24:0]` (R64). -/
def low25 (value32 : Word) : Nat := fieldValue value32 25 0

/-- Path 3: `high7` into the scratch register, 25 doublings, `low25` into `dst`, one ADD (R64). -/
def wideExpansion (cfg : Config) (dst : Nat) (value32 : Word) (s : Nat) : Except Fatal (List Word) := do
  let loadHigh ← encodeImmediate cfg s (high7 value32)
  let double ← encodeRegisterOp cfg cfg.opcAdd.toNat s s s
  let loadLow ← encodeImmediate cfg dst (low25 value32)
  let combine ← encodeRegisterOp cfg cfg.opcAdd.toNat dst dst s
  return [loadHigh] ++ List.replicate 25 double ++ [loadLow] ++ [combine]

/-- `LoadLiteral(dst, value32, scratch?)` (R58): a fatal fault (R59), a user-facing error with no word (R63), or
the whole expansion (R61, R62, R64). -/
def loadLiteral (cfg : Config) (dst : Nat) (value32 : Word) (scratch : Option Nat) :
    Except Fatal (Except UserError (List Word)) := do
  checkLiteralOperands dst scratch
  match literalPath value32, scratch with
  | .direct, _ => return .ok (← directExpansion cfg dst value32)
  | .complemented, _ => return .ok (← complementExpansion cfg dst value32)
  | .wide, none => return .error .missingScratchRegister
  | .wide, some s =>
    if s = dst then return .error .scratchAliasesDestination
    else return .ok (← wideExpansion cfg dst value32 s)

end Sys2Proof.Machine
end

