-- ==== Sys2Proof/Machine/Block.lean ====
section
/-! DEFINITION. The block: a total function from a request to its result, with no state (10_state.md R16, R17), and
the table of error kinds (60_exceptions.md R75). -/

namespace Sys2Proof.Machine

/-- The result of one request, or the fatal fault it ends in (R17, R76). -/
def serve (cfg : Config) : Request → Except Fatal Reply
  | .extract word width lsb => do return .value (← extractUnsigned word width lsb)
  | .insert word width lsb value => do return .word (← insertUnsigned word width lsb value)
  | .encReg opcode dest srcA srcB => do return .word (← encodeRegisterOp cfg opcode dest srcA srcB)
  | .encImm dest value25 => do return .word (← encodeImmediate cfg dest value25)
  | .loadLiteral dst value32 scratch => do
    match ← loadLiteral cfg dst value32 scratch with
    | .ok ws => return .expansion ws
    | .error e => return .error e

end Sys2Proof.Machine

namespace Sys2Proof

/-- The words a reply hands to the word sink, index 0 first (20_memory.md R26, R27); none for an EXTRACT value or a
user-facing error (R32, R77). DEDUCED, unsafe: the word of an INSERT is handed on like any other (log 5). -/
def Reply.emitted : Reply → List Word
  | .value _ => []
  | .word w => [w]
  | .expansion ws => ws
  | .error _ => []

/-- The user-facing error a reply reports, if it is one (R77). -/
def Reply.userError : Reply → Option UserError
  | .error e => some e
  | _ => none

/-- The kind of a fatal fault (R75). -/
def Fatal.kind : Fatal → ErrorKind
  | .immediateOutOfRange _ => .immediateOutOfRange
  | .codecContractViolation _ _ => .codecContractViolation
  | .opcodeShapeMismatch _ => .opcodeShapeMismatch

/-- The kind of a user-facing error (R75). -/
def UserError.kind : UserError → ErrorKind
  | .missingScratchRegister => .missingScratchRegister
  | .scratchAliasesDestination => .scratchAliasesDestination

/-- The code column of R75's table. -/
def ErrorKind.code : ErrorKind → Nat
  | .immediateOutOfRange => 0
  | .codecContractViolation => 1
  | .opcodeShapeMismatch => 2
  | .missingScratchRegister => 3
  | .scratchAliasesDestination => 4

/-- The class column of R75's table. -/
def ErrorKind.errorClass : ErrorKind → ErrorClass
  | .immediateOutOfRange => .fatalInternal
  | .codecContractViolation => .fatalInternal
  | .opcodeShapeMismatch => .fatalInternal
  | .missingScratchRegister => .userFacing
  | .scratchAliasesDestination => .userFacing

end Sys2Proof
end

