-- ==== Sys2Proof/Machine/State.lean ====
section
/-! DEFINITION. The state of a session: the checking interpreter's registers, word sequence and position
(43_reference_semantics.md R67), and around the stateless block the requests issued, the results delivered and the
reports made (20_memory.md R34; 60_exceptions.md R77, R78). INVENTORY.md lists each field with its rule. -/

namespace Sys2Proof.Machine

/-- Everything a session holds. The block itself keeps no state (10_state.md R16) and the configuration is no state
(R23). -/
structure State where
  /-- `x[0..7]` of the checking interpreter (R67). -/
  regs : RegFile
  /-- The word sequence: what the word sink has received (R26, R27), which is what the interpreter runs (R67). -/
  words : List Word
  /-- The position in the word sequence of the next word to run (R67). -/
  pos : Nat
  /-- Requests issued and not yet served, in issue order (R34). The model's own field. -/
  pending : List Request
  /-- Results delivered, in issue order (R17, R34). The model's own field. -/
  replies : List Reply
  /-- Calls of the error callback, in order (R77). The model's own field. -/
  reports : List Report
  /-- `CALLBACK_OUTCOME`, the driver's parameter (R78). The model's own field. -/
  callback : CallbackOutcome
deriving DecidableEq, Repr

/-- Why a session stops with no further step. -/
inductive Fault where
  /-- A request ended in a fatal internal fault; it is recorded here with its info (R76). Raised by serving a
  request. Safe: the spec gives no further step. -/
  | fatal (f : Fatal)
  /-- Every issued request is served and the last word has run: the run is over (R67). Raised by fetching past the
  last word. No error, and safe: the spec gives no further step (DESIGN CHOICE, log 6). -/
  | runEnded
deriving DecidableEq, Repr

/-- Why a session refuses to go on. -/
inductive Refusal where
  /-- An instruction without a meaning yet; raised by no arm of `exec`. Safe. -/
  | notModelled (mnemonic : String)
  /-- `Refused(w)`: the word's code is none of the four (R68). Raised by the interpreter's fetch. Safe. -/
  | otherCode (w : Word)
  /-- Two opcode codes of the configuration are equal (R87). Raised before any request or word. Safe. -/
  | invalidConfiguration
  /-- An operand no word can hold, in an instruction term the decoder never gives. Raised by every meaning. Safe
  (DESIGN CHOICE, log 10). -/
  | illFormedOperand
deriving DecidableEq, Repr

/-- The session before any request and any word. The spec gives no reset value to anything (70_reset_and_hazards.md
R85, R86). DESIGN CHOICE: the registers hold 0 (log 2, unsafe); nothing is issued, emitted or reported and the
position is the first word (log 3); the callback answers "continue" (log 8). -/
def State.reset : State where
  regs     := Vector.replicate 8 0
  words    := []
  pos      := 0
  pending  := []
  replies  := []
  reports  := []
  callback := .continues

end Sys2Proof.Machine
end

