-- ==== Sys2Proof/Machine/Ops.lean ====
section
/-! DEFINITION. The named operations over a session: register reads and writes, the position, delivery of a result to
the word sink, the report of a user-facing error, and the fatal fault. The hardware has no trap mechanism
(60_exceptions.md R79): the last two are all its exceptions. -/

namespace Sys2Proof.Machine

/-- `x[r]` (00_scope.md R13). Every register is an ordinary one (10_state.md R19). Callers check `r < 8`. -/
def State.readReg (s : State) (r : Nat) : Word := s.regs[r]?.getD 0

/-- `x[r] <- v` (R13). -/
def State.writeReg (s : State) (r : Nat) (v : Word) : State :=
  { s with regs := s.regs.setIfInBounds r v }

/-- Go on to the next index of the word sequence (R67). -/
def State.advance (s : State) : State := { s with pos := s.pos + 1 }

/-- Call the error callback for a user-facing error, and record what it was given and what it returned
(R77, R78). The message is the free text of this report (log 9). -/
def State.report (s : State) (e : UserError) : State :=
  { s with reports := s.reports ++
      [{ handle := Config.errorHandle, error := e, message := Config.errorMessage s.reports.length,
         outcome := s.callback }] }

/-- Report a reply's user-facing error, if it is one (R77). -/
def State.reportReply (s : State) (r : Reply) : State :=
  match r.userError with
  | some e => s.report e
  | none => s

/-- Deliver a result whole: its words go to the end of the sink in index order, and the requester has its reply
(10_state.md R21, R25; 20_memory.md R27, R32). -/
def State.deliver (s : State) (r : Reply) : State :=
  { s.reportReply r with words := s.words ++ r.emitted, replies := s.replies ++ [r] }

/-- `raise Fatal(kind, info)`: the run is over, with the fault recorded (R76). -/
def raiseFatal (f : Fatal) : Host.Outcome State Fault Refusal := .fault (.fatal f)

end Sys2Proof.Machine
end

