-- ==== Sys2Proof/Machine/Operands.lean ====
section
/-! DEFINITION. The operand forms of the two instruction shapes: a direct register number (30_encoding.md R42) and the
25-bit unsigned immediate (R41). There are no others. -/

namespace Sys2Proof.Machine

/-- The 25-bit literal, unshifted and zero-extended to a word (R41, R69). -/
def zeroExtendImmediate (imm : Nat) : Word := (BitVec.ofNat 25 imm).setWidth 32

/-- A three-register instruction: read `x[A]`, `x[B]` and `x[C]`, write `x[A]` with what `f` makes of them, go on
(R38, R67). All reads come before the write (R70). -/
def threeRegister (f : Word → Word → Word → Word) (a b c : Nat) (s : State) : Host.Outcome State Fault Refusal :=
  if registerFits a && registerFits b && registerFits c then
    .next (s.writeReg a (f (s.readReg a) (s.readReg b) (s.readReg c))).advance
  else .refused .illFormedOperand

/-- An immediate-load instruction: write the zero-extended literal to `x[A']`, go on (R40, R67). -/
def immediateLoad (a imm : Nat) (s : State) : Host.Outcome State Fault Refusal :=
  if registerFits a && immediateFits imm then
    .next (s.writeReg a (zeroExtendImmediate imm)).advance
  else .refused .illFormedOperand

end Sys2Proof.Machine

namespace Sys2Proof

/-- The destination register of an instruction: field A, or A' of an immediate load (R38, R40). -/
def Instr.destination : Instr → Nat
  | .cmov a _ _ => a
  | .add a _ _ => a
  | .nand a _ _ => a
  | .loadval a _ => a

end Sys2Proof
end

