-- ==== Sys2Proof/Machine/Flags.lean ====
section
/-! DEFINITION. The arithmetic of the native instructions. The spec has no flag, condition code or predicate
(10_state.md R22, 43_reference_semantics.md R73): no result here carries a flag, and the one condition is the value of
CMOV's third register (R72). -/

namespace Sys2Proof.Machine

/-- `~(x & y)` on all 32 bits (R70). -/
def nandWord (x y : Word) : Word := ~~~(x &&& y)

/-- `(x + y) mod 2^32`; no carry or overflow is recorded (R71, R73). PRESUMED, unsafe: the wrap is the spec's general
knowledge (log 13). -/
def addWord (x y : Word) : Word := x + y

/-- The condition of CMOV: the word is not 0 (R72). PRESUMED, unsafe: the spec's general knowledge (log 12). -/
def conditionHolds (x : Word) : Bool := x != 0

/-- What CMOV leaves in `x[A]`, given the old `x[A]`, `x[B]` and `x[C]` (R72). -/
def conditionalMove (old x cond : Word) : Word := if conditionHolds cond then x else old

end Sys2Proof.Machine
end

