-- ==== Sys2Proof/Machine/Native.lean ====
section
/-! DEFINITION. The meanings of the four native instructions (43_reference_semantics.md R69 to R72). -/

namespace Sys2Proof.Machine

/-- CMOV: `if x[C] ≠ 0 then x[A] <- x[B]` (R72). -/
def execCmov (a b c : Nat) (s : State) : Host.Outcome State Fault Refusal :=
  threeRegister conditionalMove a b c s

/-- ADD: `x[A] <- (x[B] + x[C]) mod 2^32` (R71). -/
def execAdd (a b c : Nat) (s : State) : Host.Outcome State Fault Refusal :=
  threeRegister (fun _ x y => addWord x y) a b c s

/-- NAND: `x[A] <- ~(x[B] & x[C])` (R70). -/
def execNand (a b c : Nat) (s : State) : Host.Outcome State Fault Refusal :=
  threeRegister (fun _ x y => nandWord x y) a b c s

/-- LOADVAL: `x[A'] <- zext_32(imm)` (R69). -/
def execLoadval (a imm : Nat) (s : State) : Host.Outcome State Fault Refusal :=
  immediateLoad a imm s

end Sys2Proof.Machine
end

