-- ==== Sys2Proof/Machine/Dispatch.lean ====
section
/-! DEFINITION. Each native instruction's meaning, one arm per constructor (43_reference_semantics.md R68). -/

namespace Sys2Proof.Machine

def exec (i : Instr) (s : State) : Host.Outcome State Fault Refusal :=
  match i with
  | .cmov a b c => Sys2Proof.Machine.execCmov a b c s
  | .add a b c => Sys2Proof.Machine.execAdd a b c s
  | .nand a b c => Sys2Proof.Machine.execNand a b c s
  | .loadval a imm => Sys2Proof.Machine.execLoadval a imm s

end Sys2Proof.Machine
end

