-- ==== Sys2Proof/Machine/Session.lean ====
section
/-! DEFINITION. One step of a session under a configuration: refuse an invalid configuration, serve the oldest issued
request, or run the next word. Step.lean fixes the configuration. -/

namespace Sys2Proof.Machine

/-- Serve one request: a transaction that ends in its whole result or in a fatal fault (10_state.md R17, R25;
60_exceptions.md R76). -/
def serveRequest (cfg : Config) (r : Request) (rest : List Request) (s : State) :
    Host.Outcome State Fault Refusal :=
  match serve cfg r with
  | .error f => raiseFatal f
  | .ok reply => .next { s.deliver reply with pending := rest }

/-- The word at the position, if the sequence has one there (R67). -/
def fetchWord (s : State) : Option Word := s.words[s.pos]?

/-- Run the next word of the sequence: its instruction's meaning, `Refused(w)` where the word has none, and the end of
the run after the last word (R67, R68; log 6). -/
def runWord (cfg : Config) (s : State) : Host.Outcome State Fault Refusal :=
  match fetchWord s with
  | none => .fault .runEnded
  | some w =>
    match decodeWord cfg w with
    | .error _ => .refused (.otherCode w)
    | .ok i => exec i s

/-- One step under a configuration. An invalid configuration processes nothing (R87). The requests are served first,
in issue order (R34), then the emitted words run in index order (R67); DESIGN CHOICE, safe: neither reads what the
other writes (log 4). -/
def stepWith (cfg : Config) (s : State) : Host.Outcome State Fault Refusal :=
  if cfg.valid then
    match s.pending with
    | r :: rest => serveRequest cfg r rest s
    | [] => runWord cfg s
  else .refused .invalidConfiguration

/-- `ws` with the word at index `k` set to `w`; words of zeros fill a gap before `k`. -/
def placeWord (ws : List Word) (k : Nat) (w : Word) : List Word :=
  ws.take k ++ List.replicate (k - ws.length) 0 ++ [w] ++ ws.drop (k + 1)

/-- The session with `w` as the next thing to run: no request is left to serve, and `w` stands at the position. -/
def placeNext (s : State) (w : Word) : State :=
  { s with pending := [], words := placeWord s.words s.pos w }

end Sys2Proof.Machine
end

