-- ==== Sys2Proof/Machine/Step.lean ====
section
/-! DEFINITION. The step of the machine, under `UM_DEFAULT` (00_scope.md R10; log 1), and where the host puts the next
instruction. -/

namespace Sys2Proof.Machine

/-- One step of a session under `UM_DEFAULT`. Statements are made for `stepWith` and every valid configuration. -/
def step (s : State) : Host.Outcome State Fault Refusal := stepWith Config.umDefault s

/-- The session with the table word `w` of `nbits` bits as the next instruction (log 3). -/
def State.withFetchWord (s : State) (nbits w : Nat) : State := placeNext s (tableWord nbits w)

end Sys2Proof.Machine
end

