-- ==== Sys2Proof/Safety.lean ====
section
/-! DEFINITION. The terms statements use: runs of a session, the words that come next, a finished session, and the
invariant that ties the sink and the reports to the results delivered. -/

namespace Sys2Proof.Machine

/-- `n` steps under a configuration, stopping at the first fault or refusal (under `UM_DEFAULT`, the host's run of
`Sys2Proof.core`). -/
def runWith (cfg : Config) : Nat → State → Host.Outcome State Fault Refusal
  | 0, s => .next s
  | n + 1, s =>
    match stepWith cfg s with
    | .next t => runWith cfg n t
    | .fault f => .fault f
    | .refused q => .refused q

/-- The start of a run of the checking interpreter: any start registers and any word sequence (R67). -/
def State.start (x0 : RegFile) (ws : List Word) : State :=
  { State.reset with regs := x0, words := ws }

/-- The result of a run of the checking interpreter over `ws` from `x0` (R67). -/
def interpret (cfg : Config) (x0 : RegFile) (ws : List Word) : Host.Outcome State Fault Refusal :=
  runWith cfg ws.length (State.start x0 ws)

/-- The interpreter is about to run the words `ws`, one after another: no request is left to serve and `ws` stands
at the position (R90). -/
def State.RunsNext (s : State) (ws : List Word) : Prop :=
  s.pending = [] ∧ ws <+: s.words.drop s.pos

/-- The opcode field `w[31:28]` is one of the four configured codes (R43, R68). -/
def hasMeaning (cfg : Config) (w : Word) : Bool :=
  w.extractLsb' 28 4 == cfg.opcCmov || w.extractLsb' 28 4 == cfg.opcNand ||
  w.extractLsb' 28 4 == cfg.opcAdd || w.extractLsb' 28 4 == cfg.opcLoadval

/-- Every issued request is served and every word has run (R67). -/
def State.finished (s : State) : Bool := s.pending.isEmpty && decide (s.words.length ≤ s.pos)

/-- The session invariant: the position is in the word sequence or just after it (R67), the sink holds the
concatenation of the results in issue order (R34), and the reports are those of the user-facing errors delivered
(R77). -/
def State.Inv (s : State) : Prop :=
  s.pos ≤ s.words.length ∧
  s.words = s.replies.flatMap Reply.emitted ∧
  s.reports.map Report.error = s.replies.filterMap Reply.userError

end Sys2Proof.Machine
end

