-- ==== Sys2Proof/Certificates/Slice0/Obligations.lean ====
section
/-! DEFINITION. The statements for the provers. Each is for every configuration that is valid (00_scope.md R10,
70_reset_and_hazards.md R87) where it reads one, never for `UM_DEFAULT` alone unless it says so. -/

open Sys2Proof Sys2Proof.Machine

/-! ### Configuration -/

/-- `UM_DEFAULT` is a valid configuration with the codes 0, 6, 3, 13 (R10, marked general knowledge by the spec; log 1). -/
def Obligations.DefaultConfigurationHasItsCodes : Prop :=
  Config.umDefault.valid = true ∧
  Config.umDefault.opcCmov.toNat = 0 ∧ Config.umDefault.opcNand.toNat = 6 ∧
  Config.umDefault.opcAdd.toNat = 3 ∧ Config.umDefault.opcLoadval.toNat = 13

/-- A session is refused as an invalid configuration exactly when two codes are equal (R87; that words are refused too,
not only requests, is the model's choice, log 14). Other refusals, such as R68's, are not spoken of. -/
def Obligations.EqualCodesAreRefused : Prop :=
  ∀ (cfg : Config) (s : State),
    stepWith cfg s = .refused .invalidConfiguration ↔
      ¬ [cfg.opcCmov, cfg.opcNand, cfg.opcAdd, cfg.opcLoadval].Nodup

/-! ### Bit-field codec -/

/-- R49: both operations raise the contract violation exactly when `width + lsb > 32`, width 0 is permitted with every
`lsb` up to 32, and the mask of a width is `2^width - 1`. -/
def Obligations.ContractViolationExactlyBeyondWord : Prop :=
  ∀ (w : Word) (width lsb value : Nat),
    (extractUnsigned w width lsb = .error (.codecContractViolation width lsb) ↔ 32 < width + lsb) ∧
    (insertUnsigned w width lsb value = .error (.codecContractViolation width lsb) ↔ 32 < width + lsb) ∧
    (lsb ≤ 32 → extractUnsigned w 0 lsb = .ok 0 ∧ insertUnsigned w 0 lsb 0 = .ok w) ∧ mask width = 2 ^ width - 1

/-- R50: the request EXTRACT answers the number whose bits are those of the field, and faults on a contract
violation only. -/
def Obligations.ExtractReadsExactlyTheField : Prop :=
  ∀ (cfg : Config) (w : Word) (width lsb : Nat),
    (32 < width + lsb → serve cfg (.extract w width lsb) = .error (.codecContractViolation width lsb)) ∧
    (width + lsb ≤ 32 → ∃ v, serve cfg (.extract w width lsb) = .ok (.value v) ∧
      v = w.toNat / 2 ^ lsb % 2 ^ width ∧ v < 2 ^ width ∧
      ∀ i, i < width → v.testBit i = w.getLsbD (lsb + i))

/-- R51: the request INSERT replaces the field's bits by the value's and leaves every other bit; it faults on a
contract violation first, then on a value too wide. -/
def Obligations.InsertReplacesExactlyTheField : Prop :=
  ∀ (cfg : Config) (w : Word) (width lsb value : Nat),
    (32 < width + lsb →
      serve cfg (.insert w width lsb value) = .error (.codecContractViolation width lsb)) ∧
    (width + lsb ≤ 32 → 2 ^ width ≤ value →
      serve cfg (.insert w width lsb value) = .error (.immediateOutOfRange (.field width lsb value))) ∧
    (width + lsb ≤ 32 → value < 2 ^ width → ∃ w', serve cfg (.insert w width lsb value) = .ok (.word w') ∧
      ∀ i, i < 32 →
        w'.getLsbD i = if lsb ≤ i ∧ i < lsb + width then value.testBit (i - lsb) else w.getLsbD i)

/-- R52: a value inserted is the value extracted, from any starting word. -/
def Obligations.ExtractAfterInsertIsTheValue : Prop :=
  ∀ (w : Word) (width lsb v : Nat), width + lsb ≤ 32 → v < 2 ^ width →
    ∃ w', insertUnsigned w width lsb v = .ok w' ∧ extractUnsigned w' width lsb = .ok v ∧
      (∀ width' lsb', width' + lsb' ≤ 32 → lsb + width ≤ lsb' ∨ lsb' + width' ≤ lsb →
        extractUnsigned w' width' lsb' = extractUnsigned w width' lsb')

/-- R52, last sentence: insertions into disjoint fields commute, faults included where both values fit. -/
def Obligations.DisjointInsertionsCommute : Prop :=
  ∀ (w : Word) (width₁ lsb₁ v₁ width₂ lsb₂ v₂ : Nat),
    width₁ + lsb₁ ≤ 32 → v₁ < 2 ^ width₁ → width₂ + lsb₂ ≤ 32 → v₂ < 2 ^ width₂ →
    lsb₁ + width₁ ≤ lsb₂ ∨ lsb₂ + width₂ ≤ lsb₁ →
    ∃ w₁ w₂ w', insertUnsigned w width₁ lsb₁ v₁ = .ok w₁ ∧ insertUnsigned w₁ width₂ lsb₂ v₂ = .ok w' ∧
      insertUnsigned w width₂ lsb₂ v₂ = .ok w₂ ∧ insertUnsigned w₂ width₁ lsb₁ v₁ = .ok w'

/-! ### Instruction encoder -/

/-- R54: the word of ENC_REG in closed form for every accepted request, and the fault of every other one, in the
order of the pseudocode. -/
def Obligations.EncRegWordAndFaults : Prop :=
  ∀ (cfg : Config) (opcode dest srcA srcB : Nat),
    serve cfg (.encReg opcode dest srcA srcB) =
      if 16 ≤ opcode then .error (.immediateOutOfRange (.operand .op opcode))
      else if opcode = cfg.opcLoadval.toNat then .error (.opcodeShapeMismatch opcode)
      else if 8 ≤ dest then .error (.immediateOutOfRange (.field 3 6 dest))
      else if 8 ≤ srcA then .error (.immediateOutOfRange (.field 3 3 srcA))
      else if 8 ≤ srcB then .error (.immediateOutOfRange (.field 3 0 srcB))
      else .ok (.word (BitVec.ofNat 32 (opcode * 2 ^ 28 + dest * 2 ^ 6 + srcA * 2 ^ 3 + srcB)))

/-- R55: the word of ENC_IMM in closed form for every accepted request; a value over 25 bits faults, it is never
truncated. -/
def Obligations.EncImmWordAndFaults : Prop :=
  ∀ (cfg : Config) (dest value25 : Nat),
    serve cfg (.encImm dest value25) =
      if 8 ≤ dest then .error (.immediateOutOfRange (.field 3 25 dest))
      else if 2 ^ 25 ≤ value25 then .error (.immediateOutOfRange (.field 25 0 value25))
      else .ok (.word (BitVec.ofNat 32 (cfg.opcLoadval.toNat * 2 ^ 28 + dest * 2 ^ 25 + value25)))

/-- R80: which fault is reported, and with which info, when several apply to one ENC_REG, ENC_IMM or INSERT. -/
def Obligations.FirstApplicableFaultIsReported : Prop :=
  (∀ (cfg : Config) (opcode dest srcA srcB : Nat) (f : Fatal),
    serve cfg (.encReg opcode dest srcA srcB) = .error f ↔
      (16 ≤ opcode ∧ f = .immediateOutOfRange (.operand .op opcode)) ∨
      (opcode < 16 ∧ opcode = cfg.opcLoadval.toNat ∧ f = .opcodeShapeMismatch opcode) ∨
      (opcode < 16 ∧ opcode ≠ cfg.opcLoadval.toNat ∧
        ((8 ≤ dest ∧ f = .immediateOutOfRange (.field 3 6 dest)) ∨
         (dest < 8 ∧ 8 ≤ srcA ∧ f = .immediateOutOfRange (.field 3 3 srcA)) ∨
         (dest < 8 ∧ srcA < 8 ∧ 8 ≤ srcB ∧ f = .immediateOutOfRange (.field 3 0 srcB))))) ∧
  (∀ (cfg : Config) (dest value25 : Nat) (f : Fatal),
    serve cfg (.encImm dest value25) = .error f ↔
      (8 ≤ dest ∧ f = .immediateOutOfRange (.field 3 25 dest)) ∨
      (dest < 8 ∧ 2 ^ 25 ≤ value25 ∧ f = .immediateOutOfRange (.field 25 0 value25))) ∧
  (∀ (cfg : Config) (w : Word) (width lsb value : Nat) (f : Fatal),
    serve cfg (.insert w width lsb value) = .error f ↔
      (32 < width + lsb ∧ f = .codecContractViolation width lsb) ∨
      (width + lsb ≤ 32 ∧ 2 ^ width ≤ value ∧ f = .immediateOutOfRange (.field width lsb value)))

/-- R39 for ENC_REG and LOAD_LITERAL: bits `[27:9]` are zero in the word of every accepted ENC_REG and in every word of
an accepted LOAD_LITERAL expansion that has the three-register shape. An INSERT's word, which by the model's reading
reaches the sink too (log 5), may hold any bits there. -/
def Obligations.RegisterWordsLeaveUnassignedBitsZero : Prop :=
  (∀ (cfg : Config) (opcode dest srcA srcB : Nat) (w : Word),
    serve cfg (.encReg opcode dest srcA srcB) = .ok (.word w) → ∀ i, 9 ≤ i → i < 28 → w.getLsbD i = false) ∧
  (∀ (cfg : Config) (dst : Nat) (v : Word) (scratch : Option Nat) (ws : List Word) (w : Word),
    serve cfg (.loadLiteral dst v scratch) = .ok (.expansion ws) → w ∈ ws →
    w.extractLsb' 28 4 ≠ cfg.opcLoadval → ∀ i, 9 ≤ i → i < 28 → w.getLsbD i = false)

/-- R57 (a): the field view of an encoded word gives back what was encoded. -/
def Obligations.FieldViewReadsBackEncodedWord : Prop :=
  (∀ (cfg : Config) (opcode a b c : Nat) (w : Word), encodeRegisterOp cfg opcode a b c = .ok w →
    fieldView cfg w = .threeRegister opcode a b c) ∧
  (∀ (cfg : Config) (a v : Nat) (w : Word), encodeImmediate cfg a v = .ok w →
    fieldView cfg w = .immediate cfg.opcLoadval.toNat a v)

/-- R57 (b): both encoders are injective on what they accept, and no word is the output of both. -/
def Obligations.EncodersAreInjectiveAndDisjoint : Prop :=
  (∀ (cfg : Config) (o a b c o' a' b' c' : Nat) (w : Word), encodeRegisterOp cfg o a b c = .ok w →
    encodeRegisterOp cfg o' a' b' c' = .ok w → o = o' ∧ a = a' ∧ b = b' ∧ c = c') ∧
  (∀ (cfg : Config) (a v a' v' : Nat) (w : Word), encodeImmediate cfg a v = .ok w →
    encodeImmediate cfg a' v' = .ok w → a = a' ∧ v = v') ∧
  (∀ (cfg : Config) (o a b c a' v' : Nat) (w : Word), encodeRegisterOp cfg o a b c = .ok w →
    encodeImmediate cfg a' v' ≠ .ok w)

/-- R57 (c): which words each encoder can emit. -/
def Obligations.EncoderImagesAreCharacterised : Prop :=
  ∀ (cfg : Config) (w : Word),
    ((∃ o a b c, encodeRegisterOp cfg o a b c = .ok w) ↔
      w.extractLsb' 28 4 ≠ cfg.opcLoadval ∧ w.extractLsb' 9 19 = 0) ∧
    ((∃ a v, encodeImmediate cfg a v = .ok w) ↔ w.extractLsb' 28 4 = cfg.opcLoadval)

/-- R44: ENC_REG encodes a code outside the four, and the interpreter's decoder refuses the word. -/
def Obligations.OtherCodesEncodeWithoutMeaning : Prop :=
  ∀ (cfg : Config) (opcode a b c : Nat), opcode < 16 → a < 8 → b < 8 → c < 8 →
    opcode ≠ cfg.opcCmov.toNat → opcode ≠ cfg.opcNand.toNat → opcode ≠ cfg.opcAdd.toNat →
    opcode ≠ cfg.opcLoadval.toNat →
    ∃ w, serve cfg (.encReg opcode a b c) = .ok (.word w) ∧ decodeWord cfg w = .error (.otherCode w)

/-! ### Decoding -/

/-- Words written out from the encodings of the spec decode to their instructions under `UM_DEFAULT`, whose codes the
spec marks as general knowledge (log 1). -/
def Obligations.SpecWordsDecodeToTheirInstructions : Prop :=
  decodeTableWord 32 0x00000053 = some (.cmov 1 2 3) ∧ decodeTableWord 32 0x30000103 = some (.add 4 0 3) ∧
  decodeTableWord 32 0x600000CA = some (.nand 3 1 2) ∧ decodeTableWord 32 0xDE345678 = some (.loadval 7 0x345678) ∧
  decodeTableWord 32 0x1000012E = none

/-- Decode after encode is the identity on well-formed instructions, on words and on the bytes of an image. -/
def Obligations.DecodeInvertsEncode : Prop :=
  ∀ (cfg : Config) (i : Instr), cfg.valid = true → i.wellFormed = true →
    ∃ w, encode cfg i = .ok w ∧ decodeWord cfg w = .ok i ∧
      ∀ rest, decodeBytes cfg (wordBytes w ++ rest) = .ok (i, rest)

/-- Every decoded instruction is well formed and encodes to the decoded word, but that bits `[27:9]` of a
three-register word are not kept: that they are not read is general knowledge of the spec (R68; log 11). -/
def Obligations.EncodeInvertsDecode : Prop :=
  ∀ (cfg : Config) (w : Word) (i : Instr), cfg.valid = true → decodeWord cfg w = .ok i →
    i.wellFormed = true ∧
    encode cfg i = .ok (if w.extractLsb' 28 4 = cfg.opcLoadval then w else w &&& (0xF00001FF : Word))

/-- R68 and R46: the opcode field alone selects the instruction, the operands are the named bits, any other code is
refused, and bits `[27:9]` of a three-register word are not read (general knowledge of the spec, log 11). -/
def Obligations.OpcodeFieldSelectsInstruction : Prop :=
  ∀ (cfg : Config) (w : Word), cfg.valid = true →
    decodeWord cfg w =
      if w.extractLsb' 28 4 = cfg.opcLoadval then
        .ok (.loadval (w.extractLsb' 25 3).toNat (w.extractLsb' 0 25).toNat)
      else if w.extractLsb' 28 4 = cfg.opcNand then
        .ok (.nand (w.extractLsb' 6 3).toNat (w.extractLsb' 3 3).toNat (w.extractLsb' 0 3).toNat)
      else if w.extractLsb' 28 4 = cfg.opcAdd then
        .ok (.add (w.extractLsb' 6 3).toNat (w.extractLsb' 3 3).toNat (w.extractLsb' 0 3).toNat)
      else if w.extractLsb' 28 4 = cfg.opcCmov then
        .ok (.cmov (w.extractLsb' 6 3).toNat (w.extractLsb' 3 3).toNat (w.extractLsb' 0 3).toNat)
      else .error (.otherCode w)

/-! ### Byte image -/

/-- R29 and R30: word `k` occupies bytes `4k .. 4k+3` of the image, most significant byte first, and nothing else is
in the image. -/
def Obligations.ImageHoldsWordsBigEndian : Prop :=
  ∀ (ws : List Word), (serialize ws).length = 4 * ws.length ∧
    ∀ k, (h : k < ws.length) →
      (serialize ws)[4 * k]? = some (ws[k].extractLsb' 24 8) ∧
      (serialize ws)[4 * k + 1]? = some (ws[k].extractLsb' 16 8) ∧
      (serialize ws)[4 * k + 2]? = some (ws[k].extractLsb' 8 8) ∧
      (serialize ws)[4 * k + 3]? = some (ws[k].extractLsb' 0 8)

/-- Reading an image from the bytes of word `k` decodes word `k` and leaves the image of the words after it. -/
def Obligations.ImageDecodesWordByWord : Prop :=
  ∀ (cfg : Config) (ws : List Word) (k : Nat) (h : k < ws.length),
    decodeBytes cfg ((serialize ws).drop (4 * k)) =
      match decodeWord cfg ws[k] with
      | .ok i => .ok (i, serialize (ws.drop (k + 1)))
      | .error e => .error e

/-! ### Literal decomposer -/

/-- R60: the three paths and the intervals and top bits they stand for. -/
def Obligations.PathIsChosenByInterval : Prop :=
  ∀ (v : Word),
    (literalPath v = .direct ↔ v.toNat < 0x02000000) ∧ (literalPath v = .complemented ↔ 0xFE000000 ≤ v.toNat) ∧
    (literalPath v = .wide ↔ 0x02000000 ≤ v.toNat ∧ v.toNat ≤ 0xFDFFFFFF) ∧
    (literalPath v = .direct ↔ v.extractLsb' 25 7 = 0) ∧
    (literalPath v = .complemented ↔ v.extractLsb' 25 7 = BitVec.allOnes 7) ∧
    (literalPath v = .wide → 1 ≤ high7 v ∧ high7 v ≤ 126)

/-- R61: path 1 is one immediate-load of the value, with or without a scratch register in range. -/
def Obligations.NarrowLiteralIsOneLoad : Prop :=
  ∀ (cfg : Config) (dst : Nat) (v : Word) (scratch : Option Nat), dst < 8 → (∀ s ∈ scratch, s < 8) →
    v.toNat < 2 ^ 25 →
    ∃ w, encodeImmediate cfg dst v.toNat = .ok w ∧
      serve cfg (.loadLiteral dst v scratch) = .ok (.expansion [w])

/-- R62: path 2 is one immediate-load of the complement, then NAND(dst, dst, dst). -/
def Obligations.ComplementLiteralIsLoadThenNand : Prop :=
  ∀ (cfg : Config) (dst : Nat) (v : Word) (scratch : Option Nat), cfg.valid = true → dst < 8 →
    (∀ s ∈ scratch, s < 8) → 2 ^ 25 ≤ v.toNat → (~~~v).toNat < 2 ^ 25 →
    ∃ w₀ w₁, encodeImmediate cfg dst (~~~v).toNat = .ok w₀ ∧
      encodeRegisterOp cfg cfg.opcNand.toNat dst dst dst = .ok w₁ ∧
      serve cfg (.loadLiteral dst v scratch) = .ok (.expansion [w₀, w₁])

/-- R64: path 3 is the load of `high7` into the scratch register, 25 doublings, the load of `low25` into `dst` and one
ADD, 28 words in this order. -/
def Obligations.WideLiteralIsTwentyEightWords : Prop :=
  ∀ (cfg : Config) (dst s : Nat) (v : Word), cfg.valid = true → dst < 8 → s < 8 → s ≠ dst →
    2 ^ 25 ≤ v.toNat → 2 ^ 25 ≤ (~~~v).toNat →
    ∃ w₀ double w₂₆ w₂₇, encodeImmediate cfg s (v.toNat / 2 ^ 25) = .ok w₀ ∧
      encodeRegisterOp cfg cfg.opcAdd.toNat s s s = .ok double ∧
      encodeImmediate cfg dst (v.toNat % 2 ^ 25) = .ok w₂₆ ∧
      encodeRegisterOp cfg cfg.opcAdd.toNat dst dst s = .ok w₂₇ ∧
      ∃ ws, serve cfg (.loadLiteral dst v (some s)) = .ok (.expansion ws) ∧ ws.length = 28 ∧
        ∀ k, ws[k]? = if k = 0 then some w₀ else if k ≤ 25 then some double
          else if k = 26 then some w₂₆ else if k = 27 then some w₂₇ else none

/-- R81, with R59 and R63: which error a LOAD_LITERAL ends in when several apply, and that it succeeds when none
does. -/
def Obligations.LiteralErrorsFollowPriority : Prop :=
  ∀ (cfg : Config) (dst : Nat) (v : Word) (scratch : Option Nat), cfg.valid = true →
    let wide := 2 ^ 25 ≤ v.toNat ∧ 2 ^ 25 ≤ (~~~v).toNat
    (8 ≤ dst → serve cfg (.loadLiteral dst v scratch) = .error (.immediateOutOfRange (.operand .dst dst))) ∧
    (∀ s, dst < 8 → scratch = some s → 8 ≤ s →
      serve cfg (.loadLiteral dst v scratch) = .error (.immediateOutOfRange (.operand .scratch s))) ∧
    (dst < 8 → scratch = none → wide →
      serve cfg (.loadLiteral dst v scratch) = .ok (.error .missingScratchRegister)) ∧
    (dst < 8 → scratch = some dst → wide →
      serve cfg (.loadLiteral dst v scratch) = .ok (.error .scratchAliasesDestination)) ∧
    (dst < 8 → (∀ s ∈ scratch, s < 8) → (wide → ∃ s, scratch = some s ∧ s ≠ dst) →
      ∃ ws, serve cfg (.loadLiteral dst v scratch) = .ok (.expansion ws))

/-- R66 (a) to (d): whatever the registers hold, running an expansion leaves the value in `dst`, on path 3
`value32 & 0xFE000000` in the scratch register, and every other register and every other part of the session as they
were. -/
def Obligations.ExpansionLoadsTheLiteral : Prop :=
  ∀ (cfg : Config) (dst : Nat) (v : Word) (scratch : Option Nat) (ws : List Word) (s : State),
    cfg.valid = true → loadLiteral cfg dst v scratch = .ok (.ok ws) → s.RunsNext ws →
    ∃ t, runWith cfg ws.length s = .next t ∧
      t = { s with regs := t.regs, pos := s.pos + ws.length } ∧
      t.readReg dst = v ∧
      (∀ r, r < 8 → r ≠ dst →
        t.readReg r = if literalPath v = .wide ∧ scratch = some r then v &&& (0xFE000000 : Word) else s.readReg r)

/-- R66 (e): on path 3, after `k` doublings the scratch register holds `high7 * 2^k`, which no ADD has wrapped, and
the last ADD's operands sum to the value without wrapping. -/
def Obligations.WideExpansionNeverWraps : Prop :=
  ∀ (cfg : Config) (dst sc : Nat) (v : Word) (ws : List Word) (s : State),
    cfg.valid = true → loadLiteral cfg dst v (some sc) = .ok (.ok ws) → literalPath v = .wide → s.RunsNext ws →
    (∀ k, k ≤ 25 → high7 v * 2 ^ k < 2 ^ 32 ∧
      ∃ t, runWith cfg (1 + k) s = .next t ∧ (t.readReg sc).toNat = high7 v * 2 ^ k) ∧
    (∃ t, runWith cfg 27 s = .next t ∧ (t.readReg dst).toNat + (t.readReg sc).toNat = v.toNat)

/-- R56: Complement is one NAND word, and running it leaves the complement of `src` in `dst`. -/
def Obligations.ComplementInvertsRegister : Prop :=
  ∀ (cfg : Config) (dst src : Nat), cfg.valid = true → dst < 8 → src < 8 →
    ∃ w, complement cfg dst src = .ok [w] ∧ encodeRegisterOp cfg cfg.opcNand.toNat dst src src = .ok w ∧
      ∀ s : State, s.RunsNext [w] →
        stepWith cfg s = .next (s.writeReg dst (~~~ s.readReg src)).advance

/-- A literal requested of the block, emitted to the sink and then run, ends in its register: the request and the
interpreter together, from a session whose earlier words have all run. That the
sink's words are the words run, and that requests are served before words, is the model's choice (log 4). -/
def Obligations.RequestedLiteralReachesRegister : Prop :=
  ∀ (cfg : Config) (dst : Nat) (v : Word) (scratch : Option Nat) (ws : List Word) (s : State),
    cfg.valid = true → serve cfg (.loadLiteral dst v scratch) = .ok (.expansion ws) →
    s.pending = [.loadLiteral dst v scratch] → s.pos = s.words.length →
    ∃ t, runWith cfg (1 + ws.length) s = .next t ∧ t.finished = true ∧ t.readReg dst = v ∧
      t.words = s.words ++ ws ∧ t.replies = s.replies ++ [.expansion ws] ∧ t.reports = s.reports

/-! ### Native instructions -/

/-- R69: LOADVAL completes for every register and every literal, and leaves the zero-extended literal. -/
def Obligations.LoadvalLoadsZeroExtended : Prop :=
  ∀ (a imm : Nat) (s : State), a < 8 → imm < 2 ^ 25 →
    ∃ t, exec (.loadval a imm) s = .next t ∧ (t.readReg a).toNat = imm ∧
      ∀ i, 25 ≤ i → (t.readReg a).getLsbD i = false

/-- R70: NAND completes for all registers, equal ones too, and each bit is the not-and of the old bits. -/
def Obligations.NandIsBitwiseOnOldValues : Prop :=
  ∀ (a b c : Nat) (s : State), a < 8 → b < 8 → c < 8 →
    ∃ t, exec (.nand a b c) s = .next t ∧
      ∀ i, i < 32 → (t.readReg a).getLsbD i = !((s.readReg b).getLsbD i && (s.readReg c).getLsbD i)

/-- R71: ADD completes for all registers, equal ones too, with the sum modulo `2^32` of the old values. The wrap is
marked general knowledge by the spec (log 13). -/
def Obligations.AddIsModularOnOldValues : Prop :=
  ∀ (a b c : Nat) (s : State), a < 8 → b < 8 → c < 8 →
    ∃ t, exec (.add a b c) s = .next t ∧
      (t.readReg a).toNat = ((s.readReg b).toNat + (s.readReg c).toNat) % 2 ^ 32

/-- R72: CMOV completes for all registers, equal ones too, and moves exactly when `x[C]` is not 0. The condition is
marked general knowledge by the spec (log 12). -/
def Obligations.CmovMovesWhenConditionNonzero : Prop :=
  ∀ (a b c : Nat) (s : State), a < 8 → b < 8 → c < 8 →
    ∃ t, exec (.cmov a b c) s = .next t ∧
      ((s.readReg c).toNat ≠ 0 → t.readReg a = s.readReg b) ∧
      ((s.readReg c).toNat = 0 → t.readReg a = s.readReg a)

/-- The frame of CMOV, ADD, NAND and LOADVAL: but for the destination register and the position, nothing changes; no
byte of the image, no request, reply or report. -/
def Obligations.NativeInstructionsChangeOnlyDestination : Prop :=
  ∀ (i : Instr) (s t : State), exec i s = .next t →
    (∀ r, r ≠ i.destination → t.readReg r = s.readReg r) ∧ t.pos = s.pos + 1 ∧ t.words = s.words ∧
    (∀ a : Nat, (serialize t.words)[a]? = (serialize s.words)[a]?) ∧ t.pending = s.pending ∧ t.replies = s.replies ∧
    t.reports = s.reports ∧ t.callback = s.callback

/-- The model's choice (log 10): a meaning refuses exactly the instructions no word encodes, and never faults. -/
def Obligations.OnlyIllFormedInstructionsAreRefused : Prop :=
  ∀ (i : Instr) (s : State),
    (exec i s = .refused .illFormedOperand ↔ i.wellFormed = false) ∧ ((∃ t, exec i s = .next t) ↔ i.wellFormed = true)

/-- Every register is an ordinary one: a write is read back, from it alone (R19, R67). -/
def Obligations.EveryRegisterReadsBackItsWrite : Prop :=
  ∀ (s : State) (r r' : Nat) (v : Word), r < 8 →
    (s.writeReg r v).readReg r' = if r' = r then v else s.readReg r'

/-! ### Steps of a session -/

/-- A step runs the decoded instruction (R67, R68): with no request left and a word at the position that decodes to `i`,
the step is `exec i` and nothing else. That the machine's own `step` is the step under `UM_DEFAULT` is the model's
choice of the spec's default, whose codes are general knowledge (log 1). -/
def Obligations.StepRunsTheDecodedInstruction : Prop :=
  ∀ (cfg : Config) (s : State) (w : Word) (i : Instr), cfg.valid = true → s.pending = [] →
    s.words[s.pos]? = some w → decodeWord cfg w = .ok i →
    stepWith cfg s = exec i s ∧ step s = stepWith Config.umDefault s

/-- The same from the bytes of the image: where the four bytes at `4 * pos` decode to `i`, `i` is well formed and the
step is `exec i`. -/
def Obligations.StepRunsTheInstructionInTheImage : Prop :=
  ∀ (cfg : Config) (s : State) (i : Instr) (rest : List Byte), cfg.valid = true → s.pending = [] →
    decodeBytes cfg ((serialize s.words).drop (4 * s.pos)) = .ok (i, rest) →
    i.wellFormed = true ∧ stepWith cfg s = exec i s

/-- A table word that decodes runs as the next instruction once it is placed at the position (the model's way in, log 3;
`step` and the table decoder read the codes of `UM_DEFAULT`, log 1). -/
def Obligations.PlacedTableWordRunsNext : Prop :=
  ∀ (s : State) (nbits w : Nat) (i : Instr), decodeTableWord nbits w = some i →
    step (s.withFetchWord nbits w) = exec i (s.withFetchWord nbits w)

/-- R68: a word whose code is none of the four stops the run, refused by its own word; after the last word the run is
over (the name of that stop is the model's, log 6). -/
def Obligations.RunStopsAtUnknownCodeOrEnd : Prop :=
  ∀ (cfg : Config) (s : State), cfg.valid = true → s.pending = [] →
    (∀ w, s.words[s.pos]? = some w →
      (stepWith cfg s = .refused (.otherCode w) ↔ hasMeaning cfg w = false) ∧
      ((∃ t, stepWith cfg s = .next t) ↔ hasMeaning cfg w = true)) ∧
    (s.words.length ≤ s.pos → stepWith cfg s = .fault .runEnded)

/-- R67: a run of the interpreter, from any start registers over any words. If every word has a meaning it ends after
the last word, once per word, with the sequence unchanged; else it stops at the first word without one. -/
def Obligations.InterpreterRunsAllWordsOrRefuses : Prop :=
  ∀ (cfg : Config) (x0 : RegFile) (ws : List Word), cfg.valid = true →
    ((∀ w ∈ ws, hasMeaning cfg w = true) →
      ∃ t, interpret cfg x0 ws = .next t ∧ t.words = ws ∧ t.pos = ws.length ∧ t.finished = true) ∧
    (∀ pre w post, ws = pre ++ w :: post → (∀ u ∈ pre, hasMeaning cfg u = true) → hasMeaning cfg w = false →
      interpret cfg x0 ws = .refused (.otherCode w))

/-- A run over two sequences one after the other is the second run from the registers the first left: each word
completes before the next begins (R67). -/
def Obligations.InterpreterRunsCompose : Prop :=
  ∀ (cfg : Config) (x0 : RegFile) (ws ws' : List Word) (t : State), cfg.valid = true →
    interpret cfg x0 ws = .next t →
    (∀ u, interpret cfg t.regs ws' = .next u →
      ∃ u', interpret cfg x0 (ws ++ ws') = .next u' ∧ u'.regs = u.regs) ∧
    (∀ w, interpret cfg t.regs ws' = .refused (.otherCode w) →
      interpret cfg x0 (ws ++ ws') = .refused (.otherCode w))

/-! ### The block in a session -/

/-- What serving a request does: its result's words go to the end of the sink, the requester has its reply, and no
register, no position and no earlier word changes (R20, R21, R32). That an INSERT's word counts among them is the
model's reading (log 5). -/
def Obligations.RequestOnlyAppendsItsResult : Prop :=
  ∀ (cfg : Config) (s : State) (r : Request) (rest : List Request) (reply : Reply), cfg.valid = true →
    s.pending = r :: rest → serve cfg r = .ok reply →
    ∃ t, stepWith cfg s = .next t ∧ t.words = s.words ++ reply.emitted ∧ t.replies = s.replies ++ [reply] ∧
      t.pending = rest ∧ t.regs = s.regs ∧ t.pos = s.pos ∧ t.callback = s.callback ∧
      (reply.userError = none → t.reports = s.reports)

/-- R76: a request that ends in a fatal fault ends the run with the fault and its info, and no further step is ever
taken. -/
def Obligations.FatalFaultEndsTheRun : Prop :=
  ∀ (cfg : Config) (s : State) (r : Request) (rest : List Request) (f : Fatal), cfg.valid = true →
    s.pending = r :: rest →
    (serve cfg r = .error f ↔ stepWith cfg s = .fault (.fatal f)) ∧
    (serve cfg r = .error f → ∀ n, runWith cfg (n + 1) s = .fault (.fatal f))

/-- R65 and R77: a user-facing error emits no word and is reported once through the callback. -/
def Obligations.UserErrorIsReportedAndEmitsNothing : Prop :=
  ∀ (cfg : Config) (s : State) (r : Request) (rest : List Request) (e : UserError), cfg.valid = true →
    s.pending = r :: rest → serve cfg r = .ok (.error e) →
    ∃ t rep, stepWith cfg s = .next t ∧ t.words = s.words ∧ t.regs = s.regs ∧ t.pos = s.pos ∧ t.pending = rest ∧
      t.replies = s.replies ++ [.error e] ∧ t.reports = s.reports ++ [rep] ∧ rep.error = e ∧ rep.outcome = s.callback

/-- R78: after a user-facing error the session goes on as if the failed request had not been issued, for any number of
steps: the same words, registers, position, open requests and callback, the same later replies and reported errors, the
same faults and refusals. What the failed request leaves is its own reply and its own report. -/
def Obligations.FailedRequestLeavesOnlyReplyAndReport : Prop :=
  ∀ (cfg : Config) (s : State) (r : Request) (rest : List Request) (e : UserError) (n : Nat), cfg.valid = true →
    s.pending = r :: rest → serve cfg r = .ok (.error e) →
    (∀ u, runWith cfg n { s with pending := rest } = .next u →
      ∃ t, runWith cfg (n + 1) s = .next t ∧ t.words = u.words ∧ t.regs = u.regs ∧ t.pos = u.pos ∧
        t.pending = u.pending ∧ t.callback = u.callback ∧
        (∃ new, u.replies = s.replies ++ new ∧ t.replies = s.replies ++ .error e :: new) ∧
        (∃ new, u.reports.map Report.error = s.reports.map Report.error ++ new ∧
          t.reports.map Report.error = s.reports.map Report.error ++ e :: new)) ∧
    (∀ f, runWith cfg n { s with pending := rest } = .fault f → runWith cfg (n + 1) s = .fault f) ∧
    (∀ q, runWith cfg n { s with pending := rest } = .refused q → runWith cfg (n + 1) s = .refused q)

/-- R78: what the callback returns changes nothing inside the block, in a run of any length. -/
def Obligations.CallbackOutcomeChangesNothing : Prop :=
  ∀ (cfg : Config) (s : State) (o : CallbackOutcome) (n : Nat),
    (∀ t, runWith cfg n s = .next t →
      ∃ t', runWith cfg n { s with callback := o } = .next t' ∧ t'.words = t.words ∧ t'.replies = t.replies ∧
        t'.pending = t.pending ∧ t'.regs = t.regs ∧ t'.pos = t.pos) ∧
    (∀ f, runWith cfg n s = .fault f → runWith cfg n { s with callback := o } = .fault f) ∧
    (∀ q, runWith cfg n s = .refused q → runWith cfg n { s with callback := o } = .refused q)

/-- R34: over a run of requests none of which faults, the output is the concatenation, in issue order, of their
results. That an INSERT's word counts among them is the model's reading (log 5). -/
def Obligations.OutputIsConcatenationInIssueOrder : Prop :=
  ∀ (cfg : Config) (s : State) (replies : List Reply), cfg.valid = true →
    s.pending.map (serve cfg) = replies.map Except.ok →
    ∃ t, runWith cfg s.pending.length s = .next t ∧ t.pending = [] ∧
      t.words = s.words ++ replies.flatMap Reply.emitted ∧ t.replies = s.replies ++ replies ∧
      t.regs = s.regs ∧ t.pos = s.pos

/-- R16 and R85: a request is processed the same whatever came before: in any two sessions it adds the same words and
the same reply, or ends in the same fault. -/
def Obligations.RequestResultIgnoresTheSession : Prop :=
  ∀ (cfg : Config) (s s' : State) (r : Request) (rest rest' : List Request), cfg.valid = true →
    s.pending = r :: rest → s'.pending = r :: rest' →
    (∀ t, stepWith cfg s = .next t → ∃ t' reply, stepWith cfg s' = .next t' ∧
      t.words = s.words ++ reply.emitted ∧ t'.words = s'.words ++ reply.emitted ∧
      t.replies = s.replies ++ [reply] ∧ t'.replies = s'.replies ++ [reply]) ∧
    (∀ f, stepWith cfg s = .fault f → stepWith cfg s' = .fault f)

/-- R21: words are only ever appended to the sequence, and only by requests; the driver's callback parameter never
changes. The sequence is the sink's, and the replies and reports are the model's record (log 4, log 16). -/
def Obligations.WordsAreOnlyAppended : Prop :=
  ∀ (cfg : Config) (n : Nat) (s t : State), runWith cfg n s = .next t →
    s.words <+: t.words ∧ (s.pending = [] → t.words = s.words) ∧ s.replies <+: t.replies ∧ s.reports <+: t.reports ∧
    t.callback = s.callback

/-! ### Error table, reset and invariant -/

/-- R75: the codes and classes of the five kinds; a fatal fault has a fatal kind, a user-facing error a user-facing
one. -/
def Obligations.ErrorKindsHaveTheirCodesAndClasses : Prop :=
  (ErrorKind.immediateOutOfRange.code = 0 ∧ ErrorKind.codecContractViolation.code = 1 ∧
    ErrorKind.opcodeShapeMismatch.code = 2 ∧ ErrorKind.missingScratchRegister.code = 3 ∧
    ErrorKind.scratchAliasesDestination.code = 4) ∧
  (∀ f : Fatal, f.kind.errorClass = .fatalInternal) ∧ (∀ e : UserError, e.kind.errorClass = .userFacing)

/-- R75: which requests can raise which kinds. -/
def Obligations.EachRequestRaisesOnlyItsKinds : Prop :=
  (∀ cfg w width lsb f, serve cfg (.extract w width lsb) = .error f → f.kind = .codecContractViolation) ∧
  (∀ cfg w width lsb v f, serve cfg (.insert w width lsb v) = .error f →
    f.kind = .codecContractViolation ∨ f.kind = .immediateOutOfRange) ∧
  (∀ cfg o a b c f, serve cfg (.encReg o a b c) = .error f →
    f.kind = .opcodeShapeMismatch ∨ f.kind = .immediateOutOfRange) ∧
  (∀ cfg a v f, serve cfg (.encImm a v) = .error f → f.kind = .immediateOutOfRange) ∧
  (∀ cfg d v sc f, cfg.valid = true → serve cfg (.loadLiteral d v sc) = .error f → f.kind = .immediateOutOfRange) ∧
  (∀ cfg r e, serve cfg r = .ok (.error e) → ∃ d v sc, r = .loadLiteral d v sc ∧ literalPath v = .wide)

/-- The model's choices for reset (the spec states no reset value, R85, R86): the registers hold 0 (log 2), nothing is
issued, emitted, answered or reported and the position is the first word (log 3), the callback answers "continue"
(log 8); the session is finished, the first step, under `UM_DEFAULT` (log 1), finds the run over (log 6), and the session
invariant holds. -/
def Obligations.ResetMeetsSessionInvariant : Prop :=
  State.reset.Inv ∧ State.reset.regs = Vector.replicate 8 0 ∧ State.reset.words = [] ∧ State.reset.pos = 0 ∧
    State.reset.pending = [] ∧ State.reset.replies = [] ∧ State.reset.reports = [] ∧
    State.reset.callback = .continues ∧ State.reset.finished = true ∧ step State.reset = .fault .runEnded

/-- Every step keeps the session invariant, from every session that meets it: the position stays in the sequence, the
sink stays the concatenation of the results, the reports stay those of the user-facing errors (R67, R34,
R77; log 5). That sink and word sequence are one, and the record of replies and reports, are the model's choice (log 4,
log 16). -/
def Obligations.EveryStepKeepsSessionInvariant : Prop :=
  ∀ (cfg : Config) (s t : State), s.Inv → stepWith cfg s = .next t → t.Inv
end

