-- ==== Sys2Proof/Laws/Codec.lean ====
section
/-! SUPPORT. The codec inside its contract, and words against their bytes. -/

namespace Sys2Proof.Machine

/-- A field's value fits the field. -/
theorem fieldValue_lt (w : Word) (width lsb : Nat) : fieldValue w width lsb < 2 ^ width :=
  Nat.mod_lt _ (Nat.two_pow_pos width)

/-- The bits of a field's value are the word's. -/
theorem fieldValue_testBit (w : Word) (width lsb i : Nat) :
    (fieldValue w width lsb).testBit i = (decide (i < width) && w.getLsbD (lsb + i)) := by
  simp [fieldValue, Nat.testBit_mod_two_pow, Nat.testBit_shiftRight, BitVec.testBit_toNat]

/-- A field's value, as the bit vector of the field. -/
theorem fieldValue_eq_extractLsb' (w : Word) (width lsb : Nat) :
    fieldValue w width lsb = (w.extractLsb' lsb width).toNat := by
  simp [fieldValue]

theorem extractUnsigned_ok (w : Word) {width lsb : Nat} (h : width + lsb ≤ 32) :
    extractUnsigned w width lsb = .ok (fieldValue w width lsb) := by
  simp [extractUnsigned, Nat.not_lt.mpr h]

theorem insertUnsigned_contract (w : Word) {width lsb : Nat} (value : Nat) (h : 32 < width + lsb) :
    insertUnsigned w width lsb value = .error (.codecContractViolation width lsb) := by
  simp [insertUnsigned, h]

theorem insertUnsigned_range (w : Word) {width lsb value : Nat} (h : width + lsb ≤ 32) (hv : 2 ^ width ≤ value) :
    insertUnsigned w width lsb value = .error (.immediateOutOfRange (.field width lsb value)) := by
  simp [insertUnsigned, Nat.not_lt.mpr h, hv]

/-- The word of an insertion inside its contract. -/
theorem insertUnsigned_ok (w : Word) {width lsb value : Nat} (h : width + lsb ≤ 32) (hv : value < 2 ^ width) :
    insertUnsigned w width lsb value =
      .ok ((w &&& ~~~(BitVec.ofNat 32 (mask width <<< lsb))) ||| BitVec.ofNat 32 (value <<< lsb)) := by
  simp [insertUnsigned, Nat.not_lt.mpr h, Nat.not_le.mpr hv]

/-- The bytes of a word give the word back. -/
theorem wordOfBytes_wordBytes (w : Word) :
    wordOfBytes (w.extractLsb' 24 8) (w.extractLsb' 16 8) (w.extractLsb' 8 8) (w.extractLsb' 0 8) = w := by
  unfold wordOfBytes
  ext i hi
  simp only [BitVec.getElem_append, BitVec.getElem_extractLsb']
  split
  · simp [BitVec.getLsbD_eq_getElem hi]
  · split
    · rw [← BitVec.getLsbD_eq_getElem hi]; congr 1; omega
    · split
      · rw [← BitVec.getLsbD_eq_getElem hi]; congr 1; omega
      · rw [← BitVec.getLsbD_eq_getElem hi]; congr 1; omega

/-- Decoding the bytes of a word decodes the word. -/
theorem decodeBytes_wordBytes (cfg : Config) (w : Word) (rest : List Byte) :
    decodeBytes cfg (wordBytes w ++ rest) =
      match decodeWord cfg w with
      | .ok i => .ok (i, rest)
      | .error e => .error e := by
  simp only [wordBytes, List.cons_append, List.nil_append, decodeBytes, wordOfBytes_wordBytes]
  cases decodeWord cfg w <;> rfl

theorem serialize_nil : serialize [] = [] := rfl

theorem serialize_cons (w : Word) (ws : List Word) : serialize (w :: ws) = wordBytes w ++ serialize ws := rfl

theorem serialize_append (ws ws' : List Word) : serialize (ws ++ ws') = serialize ws ++ serialize ws' := by
  simp [serialize]

theorem wordBytes_length (w : Word) : (wordBytes w).length = 4 := rfl

/-- The image from byte `4 * k` on is the image of the words from `k` on. -/
theorem serialize_drop (ws : List Word) (k : Nat) : (serialize ws).drop (4 * k) = serialize (ws.drop k) := by
  induction k generalizing ws with
  | zero => rfl
  | succ k ih =>
    cases ws with
    | nil => simp [serialize]
    | cons w ws =>
      rw [serialize_cons, List.drop_append, wordBytes_length,
        List.drop_of_length_le (by rw [wordBytes_length]; omega), Nat.mul_succ, Nat.add_sub_cancel, ih]
      rfl

/-- A word placed at an index is found there. -/
theorem placeWord_getElem? (ws : List Word) (k : Nat) (w : Word) : (placeWord ws k w)[k]? = some w := by
  unfold placeWord
  rw [List.append_assoc, List.getElem?_append_right (by simp; omega)]
  have h : k - (ws.take k ++ List.replicate (k - ws.length) (0 : Word)).length = 0 := by simp; omega
  rw [h]
  rfl

/-- The codes of a valid configuration are pairwise distinct. -/
theorem Config_valid_iff (cfg : Config) :
    cfg.valid = true ↔ [cfg.opcCmov, cfg.opcNand, cfg.opcAdd, cfg.opcLoadval].Nodup := by
  simp only [Config.valid, Bool.and_eq_true, bne_iff_ne, ne_eq, List.nodup_cons, List.mem_cons, List.not_mem_nil,
    or_false, not_or, not_false_eq_true, List.nodup_nil, and_true]
  tauto

end Sys2Proof.Machine
end

