-- ==== Sys2Proof/Laws/State.lean ====
section
/-! SUPPORT. One lemma per field per update of the state, each true by `rfl`. -/

namespace Sys2Proof.Machine

variable (s : State) (r : Nat) (v w : Word) (e : UserError) (reply : Reply)

@[simp] theorem State.writeReg_regs : (s.writeReg r v).regs = s.regs.setIfInBounds r v := rfl
@[simp] theorem State.writeReg_words : (s.writeReg r v).words = s.words := rfl
@[simp] theorem State.writeReg_pos : (s.writeReg r v).pos = s.pos := rfl
@[simp] theorem State.writeReg_pending : (s.writeReg r v).pending = s.pending := rfl
@[simp] theorem State.writeReg_replies : (s.writeReg r v).replies = s.replies := rfl
@[simp] theorem State.writeReg_reports : (s.writeReg r v).reports = s.reports := rfl
@[simp] theorem State.writeReg_callback : (s.writeReg r v).callback = s.callback := rfl

@[simp] theorem State.advance_regs : s.advance.regs = s.regs := rfl
@[simp] theorem State.advance_words : s.advance.words = s.words := rfl
@[simp] theorem State.advance_pos : s.advance.pos = s.pos + 1 := rfl
@[simp] theorem State.advance_pending : s.advance.pending = s.pending := rfl
@[simp] theorem State.advance_replies : s.advance.replies = s.replies := rfl
@[simp] theorem State.advance_reports : s.advance.reports = s.reports := rfl
@[simp] theorem State.advance_callback : s.advance.callback = s.callback := rfl

@[simp] theorem State.report_regs : (s.report e).regs = s.regs := rfl
@[simp] theorem State.report_words : (s.report e).words = s.words := rfl
@[simp] theorem State.report_pos : (s.report e).pos = s.pos := rfl
@[simp] theorem State.report_pending : (s.report e).pending = s.pending := rfl
@[simp] theorem State.report_replies : (s.report e).replies = s.replies := rfl
@[simp] theorem State.report_reports : (s.report e).reports = s.reports ++
    [{ handle := Config.errorHandle, error := e, message := Config.errorMessage s.reports.length,
       outcome := s.callback }] := rfl
@[simp] theorem State.report_callback : (s.report e).callback = s.callback := rfl

@[simp] theorem State.reportReply_regs : (s.reportReply reply).regs = s.regs := by cases reply <;> rfl
@[simp] theorem State.reportReply_words : (s.reportReply reply).words = s.words := by cases reply <;> rfl
@[simp] theorem State.reportReply_pos : (s.reportReply reply).pos = s.pos := by cases reply <;> rfl
@[simp] theorem State.reportReply_pending : (s.reportReply reply).pending = s.pending := by cases reply <;> rfl
@[simp] theorem State.reportReply_replies : (s.reportReply reply).replies = s.replies := by cases reply <;> rfl
@[simp] theorem State.reportReply_callback : (s.reportReply reply).callback = s.callback := by cases reply <;> rfl
@[simp] theorem State.reportReply_error : s.reportReply (.error e) = s.report e := rfl

/-- A reply that is no user-facing error reports nothing. -/
theorem State.reportReply_eq_self (h : reply.userError = none) : s.reportReply reply = s := by
  cases reply <;> first | rfl | cases h

@[simp] theorem State.deliver_regs : (s.deliver reply).regs = s.regs := s.reportReply_regs reply
@[simp] theorem State.deliver_words : (s.deliver reply).words = s.words ++ reply.emitted := rfl
@[simp] theorem State.deliver_pos : (s.deliver reply).pos = s.pos := s.reportReply_pos reply
@[simp] theorem State.deliver_pending : (s.deliver reply).pending = s.pending := s.reportReply_pending reply
@[simp] theorem State.deliver_replies : (s.deliver reply).replies = s.replies ++ [reply] := rfl
@[simp] theorem State.deliver_reports : (s.deliver reply).reports = (s.reportReply reply).reports := rfl
@[simp] theorem State.deliver_callback : (s.deliver reply).callback = s.callback := s.reportReply_callback reply

@[simp] theorem placeNext_regs : (placeNext s w).regs = s.regs := rfl
@[simp] theorem placeNext_words : (placeNext s w).words = placeWord s.words s.pos w := rfl
@[simp] theorem placeNext_pos : (placeNext s w).pos = s.pos := rfl
@[simp] theorem placeNext_pending : (placeNext s w).pending = [] := rfl
@[simp] theorem placeNext_replies : (placeNext s w).replies = s.replies := rfl
@[simp] theorem placeNext_reports : (placeNext s w).reports = s.reports := rfl
@[simp] theorem placeNext_callback : (placeNext s w).callback = s.callback := rfl

@[simp] theorem State.readReg_advance : s.advance.readReg r = s.readReg r := rfl
@[simp] theorem State.readReg_deliver : (s.deliver reply).readReg r = s.readReg r := by simp [State.readReg]

@[simp] theorem Reply.userError_error : (Reply.error e).userError = some e := rfl
@[simp] theorem Reply.emitted_error : (Reply.error e).emitted = [] := rfl
@[simp] theorem Reply.emitted_word : (Reply.word w).emitted = [w] := rfl
@[simp] theorem Reply.emitted_expansion (ws : List Word) : (Reply.expansion ws).emitted = ws := rfl
@[simp] theorem Reply.emitted_value (n : Nat) : (Reply.value n).emitted = [] := rfl

end Sys2Proof.Machine
end

