-- ==== Sys2Proof/Laws/Ops.lean ====
section
/-! SUPPORT. For each shared operation, once, everything it can do. -/

namespace Sys2Proof.Machine

/-- The only next state of a three-register instruction. -/
theorem threeRegister_next {f : Word → Word → Word → Word} {a b c : Nat} {s t : State}
    (h : threeRegister f a b c s = .next t) :
    a < 8 ∧ b < 8 ∧ c < 8 ∧ t = (s.writeReg a (f (s.readReg a) (s.readReg b) (s.readReg c))).advance := by
  unfold threeRegister at h
  split at h
  case isTrue hw => simp_all [registerFits]
  case isFalse => cases h

/-- The only next state of an immediate-load instruction. -/
theorem immediateLoad_next {a imm : Nat} {s t : State} (h : immediateLoad a imm s = .next t) :
    a < 8 ∧ imm < 2 ^ 25 ∧ t = (s.writeReg a (zeroExtendImmediate imm)).advance := by
  unfold immediateLoad at h
  split at h
  case isTrue hw => simp_all [registerFits, immediateFits]
  case isFalse => cases h

/-- The only next state of an instruction: its destination register written, one word further. -/
theorem exec_next {i : Instr} {s t : State} (h : exec i s = .next t) :
    i.destination < 8 ∧ ∃ v, t = (s.writeReg i.destination v).advance := by
  cases i with
  | cmov a b c =>
    obtain ⟨ha, -, -, ht⟩ := threeRegister_next (f := conditionalMove) h
    exact ⟨ha, _, ht⟩
  | add a b c =>
    obtain ⟨ha, -, -, ht⟩ := threeRegister_next (f := fun _ x y => addWord x y) h
    exact ⟨ha, _, ht⟩
  | nand a b c =>
    obtain ⟨ha, -, -, ht⟩ := threeRegister_next (f := fun _ x y => nandWord x y) h
    exact ⟨ha, _, ht⟩
  | loadval a imm =>
    obtain ⟨ha, -, ht⟩ := immediateLoad_next h
    exact ⟨ha, _, ht⟩

/-- The only next state of serving a request. -/
theorem serveRequest_next {cfg : Config} {r : Request} {rest : List Request} {s t : State}
    (h : serveRequest cfg r rest s = .next t) :
    ∃ reply, serve cfg r = .ok reply ∧ t = { s.deliver reply with pending := rest } := by
  unfold serveRequest at h
  split at h
  case h_1 => cases h
  case h_2 reply hr => exact ⟨reply, hr, by simpa using h.symm⟩

/-- The only next state of running a word. -/
theorem runWord_next {cfg : Config} {s t : State} (h : runWord cfg s = .next t) :
    ∃ w i, s.words[s.pos]? = some w ∧ decodeWord cfg w = .ok i ∧ exec i s = .next t := by
  unfold runWord fetchWord at h
  split at h
  case h_1 => cases h
  case h_2 w hw =>
    split at h
    case h_1 => cases h
    case h_2 i hi => exact ⟨w, i, hw, hi, h⟩

/-- All a step can do: serve the oldest request, or, with none left, run the instruction at the position. -/
theorem stepWith_next {cfg : Config} {s t : State} (h : stepWith cfg s = .next t) :
    cfg.valid = true ∧
    ((∃ r rest reply, s.pending = r :: rest ∧ serve cfg r = .ok reply ∧
        t = { s.deliver reply with pending := rest }) ∨
     (∃ w i, s.pending = [] ∧ s.words[s.pos]? = some w ∧ decodeWord cfg w = .ok i ∧ exec i s = .next t)) := by
  unfold stepWith at h
  split at h
  case isFalse => cases h
  case isTrue hv =>
    refine ⟨hv, ?_⟩
    split at h
    case h_1 r rest hp =>
      obtain ⟨reply, hr, ht⟩ := serveRequest_next h
      exact .inl ⟨r, rest, reply, hp, hr, ht⟩
    case h_2 hp =>
      obtain ⟨w, i, hw, hi, he⟩ := runWord_next h
      exact .inr ⟨w, i, hp, hw, hi, he⟩

/-- With no request left, a step runs the word at the position. -/
theorem stepWith_runWord {cfg : Config} {s : State} (hv : cfg.valid = true) (hp : s.pending = []) :
    stepWith cfg s = runWord cfg s := by
  simp [stepWith, hv, hp]

/-- With a request left, a step serves it. -/
theorem stepWith_serveRequest {cfg : Config} {s : State} {r : Request} {rest : List Request}
    (hv : cfg.valid = true) (hp : s.pending = r :: rest) : stepWith cfg s = serveRequest cfg r rest s := by
  simp [stepWith, hv, hp]

theorem runWith_zero (cfg : Config) (s : State) : runWith cfg 0 s = .next s := rfl

/-- A run of `n + 1` steps is one step and a run of `n`. -/
theorem runWith_succ (cfg : Config) (n : Nat) (s : State) :
    runWith cfg (n + 1) s = match stepWith cfg s with
      | .next t => runWith cfg n t
      | .fault f => .fault f
      | .refused r => .refused r := rfl

theorem runWith_succ_next {cfg : Config} {s t : State} (n : Nat) (h : stepWith cfg s = .next t) :
    runWith cfg (n + 1) s = runWith cfg n t := by
  rw [runWith_succ, h]

/-- A run of `m + n` steps is a run of `m` and then one of `n`. -/
theorem runWith_add (cfg : Config) (m n : Nat) (s : State) :
    runWith cfg (m + n) s = match runWith cfg m s with
      | .next t => runWith cfg n t
      | .fault f => .fault f
      | .refused q => .refused q := by
  induction m generalizing s with
  | zero => rw [Nat.zero_add, runWith_zero]
  | succ m ih =>
    rw [Nat.succ_add, runWith_succ, runWith_succ]
    cases stepWith cfg s with
    | next t => exact ih t
    | fault f => rfl
    | refused q => rfl

/-- One step of a host run. -/
theorem host_run_succ (M : Host.Core) (n : Nat) (s : M.State) :
    M.run (n + 1) s = match M.step s with
      | .next t => M.run n t
      | .fault f => .fault f
      | .refused q => .refused q := rfl

/-- A run under `UM_DEFAULT` is the host's run of the machine. -/
theorem core_run_eq_runWith (n : Nat) (s : State) : Sys2Proof.core.run n s = runWith Config.umDefault n s := by
  induction n generalizing s with
  | zero => rfl
  | succ n ih =>
    refine (host_run_succ Sys2Proof.core n s).trans ?_
    rw [runWith_succ]
    have h : Sys2Proof.core.step s = stepWith Config.umDefault s := rfl
    rw [h]
    cases stepWith Config.umDefault s with
    | next t => exact ih t
    | fault f => rfl
    | refused q => rfl

end Sys2Proof.Machine
end

