-- ==== Sys2Proof/Laws/PerInstr.lean ====
section
/-! SUPPORT. Statements for all instructions, one lemma per constructor. -/

namespace Sys2Proof.Laws

/-- An ill-formed instruction has no word: where the encoder gives one, every operand fits its field. -/
def EncodedIsWellFormed.Statement (i : Instr) : Prop :=
  ∀ (cfg : Config) (w : Word), encode cfg i = .ok w → i.wellFormed = true

open Sys2Proof.Machine

/-- An insertion that succeeds had a value that fits. -/
theorem insertUnsigned_value_lt {w w' : Word} {width lsb value : Nat} (h : insertUnsigned w width lsb value = .ok w') :
    value < 2 ^ width := by
  unfold insertUnsigned at h
  split at h
  case isTrue => cases h
  case isFalse =>
    split at h
    case isTrue => cases h
    case isFalse hv => omega

/-- A successful bind of codec results. -/
theorem bind_eq_ok {α β : Type} {x : Except Fatal α} {f : α → Except Fatal β} {y : β} (h : (x >>= f) = .ok y) :
    ∃ a, x = .ok a ∧ f a = .ok y := by
  cases x with
  | error e => cases h
  | ok a => exact ⟨a, rfl, h⟩

/-- Registers of an accepted ENC_REG fit. -/
theorem encodeRegisterOp_registers_lt {cfg : Config} {o a b c : Nat} {w : Word}
    (h : encodeRegisterOp cfg o a b c = .ok w) : a < 8 ∧ b < 8 ∧ c < 8 := by
  unfold encodeRegisterOp at h
  split at h
  case isTrue => cases h
  case isFalse =>
    split at h
    case isTrue => cases h
    case isFalse =>
      obtain ⟨_, -, h⟩ := bind_eq_ok h
      obtain ⟨_, ha, h⟩ := bind_eq_ok h
      obtain ⟨_, hb, hc⟩ := bind_eq_ok h
      exact ⟨insertUnsigned_value_lt ha, insertUnsigned_value_lt hb, insertUnsigned_value_lt hc⟩

/-- Operands of an accepted ENC_IMM fit. -/
theorem encodeImmediate_operands_lt {cfg : Config} {a v : Nat} {w : Word}
    (h : encodeImmediate cfg a v = .ok w) : a < 8 ∧ v < 2 ^ 25 := by
  obtain ⟨_, -, h⟩ := bind_eq_ok h
  obtain ⟨_, ha, hv⟩ := bind_eq_ok h
  exact ⟨insertUnsigned_value_lt ha, insertUnsigned_value_lt hv⟩

theorem EncodedIsWellFormed.cmov (a b c : Nat) : EncodedIsWellFormed.Statement (.cmov a b c) := by
  intro cfg w h
  obtain ⟨ha, hb, hc⟩ := encodeRegisterOp_registers_lt h
  simp [Instr.wellFormed, registerFits, ha, hb, hc]

theorem EncodedIsWellFormed.add (a b c : Nat) : EncodedIsWellFormed.Statement (.add a b c) := by
  intro cfg w h
  obtain ⟨ha, hb, hc⟩ := encodeRegisterOp_registers_lt h
  simp [Instr.wellFormed, registerFits, ha, hb, hc]

theorem EncodedIsWellFormed.nand (a b c : Nat) : EncodedIsWellFormed.Statement (.nand a b c) := by
  intro cfg w h
  obtain ⟨ha, hb, hc⟩ := encodeRegisterOp_registers_lt h
  simp [Instr.wellFormed, registerFits, ha, hb, hc]

theorem EncodedIsWellFormed.loadval (a imm : Nat) : EncodedIsWellFormed.Statement (.loadval a imm) := by
  intro cfg w h
  obtain ⟨ha, hv⟩ := encodeImmediate_operands_lt h
  simp [Instr.wellFormed, registerFits, immediateFits, ha]
  omega

end Sys2Proof.Laws
end

