-- ==== Sys2Proof/Tests/Slice0.lean ====
section
/-! SUPPORT. Tests: expected values are the spec's vectors (95_test_vectors.md) or words written out from its encodings
(30_encoding.md R38, R40), never the model's own answers. Below them, a witness for the hypotheses of each statement. -/

namespace Sys2Proof.Tests

open Sys2Proof.Machine

/-- A configuration other than `UM_DEFAULT`, with pairwise distinct codes. -/
def otherCodes : Config where
  opcCmov := 15
  opcNand := 1
  opcAdd := 0
  opcLoadval := 9

/-- A configuration with two equal codes. -/
def equalCodes : Config := { Config.umDefault with opcAdd := 6 }

/-- A session with words to run from the start and no request left; register `k` holds `(k + 1) * 0x11111111`. -/
def ready (ws : List Word) : State :=
  State.start #v[0x11111111, 0x22222222, 0x33333333, 0x44444444, 0x55555555, 0x66666666, 0x77777777, 0x88888888] ws

/-- A session with requests left to serve and one word already emitted and run. -/
def asking (rs : List Request) : State :=
  { ready [0xD000002A] with pending := rs, pos := 1, replies := [.word 0xD000002A] }

/-! ### WellFormed refuses an ill-formed term at each check -/

theorem test_wellFormed_cmov : (Instr.cmov 8 0 0).wellFormed = false ∧ (Instr.cmov 0 8 0).wellFormed = false ∧
    (Instr.cmov 0 0 8).wellFormed = false ∧ (Instr.cmov 7 7 7).wellFormed = true := by decide
theorem test_wellFormed_add : (Instr.add 8 0 0).wellFormed = false ∧ (Instr.add 0 8 0).wellFormed = false ∧
    (Instr.add 0 0 8).wellFormed = false ∧ (Instr.add 7 7 7).wellFormed = true := by decide
theorem test_wellFormed_nand : (Instr.nand 8 0 0).wellFormed = false ∧ (Instr.nand 0 8 0).wellFormed = false ∧
    (Instr.nand 0 0 8).wellFormed = false ∧ (Instr.nand 7 7 7).wellFormed = true := by decide
theorem test_wellFormed_loadval : (Instr.loadval 8 0).wellFormed = false ∧
    (Instr.loadval 0 0x2000000).wellFormed = false ∧ (Instr.loadval 7 0x1FFFFFF).wellFormed = true := by decide

/-! ### Decoding: op | 19 unassigned bits | A | B | C, and op | A' | imm (R38, R40) -/

theorem test_decode_cmov :
    decodeWord .umDefault 0b0000_0000000000000000000_001_010_011 = .ok (.cmov 1 2 3) := by decide
theorem test_decode_add :
    decodeWord .umDefault 0b0011_0000000000000000000_100_000_011 = .ok (.add 4 0 3) := by decide
theorem test_decode_nand :
    decodeWord .umDefault 0b0110_0000000000000000000_011_001_010 = .ok (.nand 3 1 2) := by decide
theorem test_decode_loadval :
    decodeWord .umDefault 0b1101_110_1000000000000000000000101 = .ok (.loadval 6 0x1000005) := by decide
/-- R68: bits `[27:9]` of a three-register word are not read. -/
theorem test_decode_ignores_unassigned :
    decodeWord .umDefault 0b0011_1111111111111111111_100_000_011 = .ok (.add 4 0 3) := by decide
/-- 95_test_vectors.md section 5, refusal. -/
theorem test_decode_refuses_other_codes :
    decodeWord .umDefault 0xF00001FF = .error (.otherCode 0xF00001FF) ∧
    decodeWord .umDefault 0x1000012E = .error (.otherCode 0x1000012E) := by decide
theorem test_decode_other_configuration :
    decodeWord otherCodes 0b1001_110_1000000000000000000000101 = .ok (.loadval 6 0x1000005) ∧
    decodeWord otherCodes 0b1111_0000000000000000000_001_010_011 = .ok (.cmov 1 2 3) := by decide
/-- R29: the first byte is the most significant one. -/
theorem test_decode_bytes :
    decodeBytes .umDefault [0xD0, 0x00, 0x00, 0x2A, 0x30] = .ok (.loadval 0 42, [0x30]) ∧
    decodeBytes .umDefault [0xD0, 0x00, 0x00] = .error .truncated := by decide
theorem test_table_words :
    decodeTableWord 32 0x00000053 = some (.cmov 1 2 3) ∧ decodeTableWord 32 0xD000002A = some (.loadval 0 42) ∧
    decodeTableWord 32 0xF00001FF = none := by decide

/-! ### Codec (95_test_vectors.md section 2) -/

/-- V-X1, V-X4, V-X6, V-X8, V-X9, V-X11, V-X12. -/
theorem test_extract :
    extractUnsigned 0xD000002A 4 28 = .ok 13 ∧ extractUnsigned 0x12345678 7 25 = .ok 9 ∧
    extractUnsigned 0xFFFFFFFF 32 0 = .ok 4294967295 ∧ extractUnsigned 0xFFFFFFFF 0 32 = .ok 0 ∧
    extractUnsigned 0x80000000 1 31 = .ok 1 ∧
    extractUnsigned 0x12345678 8 25 = .error (.codecContractViolation 8 25) ∧
    extractUnsigned 0x12345678 33 0 = .error (.codecContractViolation 33 0) := by decide
/-- V-I3, V-I4, V-I6, V-I7. -/
theorem test_insert :
    insertUnsigned 0xFFFFFFFF 4 28 0 = .ok 0x0FFFFFFF ∧ insertUnsigned 0x30000000 3 6 7 = .ok 0x300001C0 ∧
    insertUnsigned 0xDEADBEEF 0 32 0 = .ok 0xDEADBEEF ∧
    insertUnsigned 0xDEADBEEF 32 0 0x12345678 = .ok 0x12345678 := by decide
/-- V-I9, V-I11, V-I12. -/
theorem test_insert_faults :
    insertUnsigned 0 25 0 0x2000000 = .error (.immediateOutOfRange (.field 25 0 0x2000000)) ∧
    insertUnsigned 0 0 0 1 = .error (.immediateOutOfRange (.field 0 0 1)) ∧
    insertUnsigned 0 8 25 0 = .error (.codecContractViolation 8 25) := by decide

/-! ### Encoder (section 3) -/

/-- V-R5, V-R4, V-R9, V-M3, V-M6. -/
theorem test_encode_instructions :
    encode .umDefault (.cmov 1 2 3) = .ok 0x00000053 ∧ encode .umDefault (.add 1 1 2) = .ok 0x3000004A ∧
    encode .umDefault (.nand 0 5 5) = .ok 0x6000002D ∧ encode .umDefault (.loadval 7 0x1FFFFFF) = .ok 0xDFFFFFFF ∧
    encode .umDefault (.loadval 1 0x345678) = .ok 0xD2345678 := by decide
/-- V-R10, V-R11: codes without meaning are encoded. -/
theorem test_encode_other_codes :
    encodeRegisterOp .umDefault 15 7 7 7 = .ok 0xF00001FF ∧ encodeRegisterOp .umDefault 1 4 5 6 = .ok 0x1000012E := by
  decide
/-- V-R17, V-R18, V-R15, V-M12: the first fault in the order of R80. -/
theorem test_encode_fault_order :
    encodeRegisterOp .umDefault 16 8 8 8 = .error (.immediateOutOfRange (.operand .op 16)) ∧
    encodeRegisterOp .umDefault 13 8 0 0 = .error (.opcodeShapeMismatch 13) ∧
    encodeRegisterOp .umDefault 3 0 8 0 = .error (.immediateOutOfRange (.field 3 3 8)) ∧
    encodeImmediate .umDefault 8 0x2000000 = .error (.immediateOutOfRange (.field 3 25 8)) := by decide

/-! ### Literal decomposer (section 4) -/

/-- V-L13, V-L14, V-L7. -/
theorem test_literal_short_paths :
    loadLiteral .umDefault 2 0x01FFFFFF (some 2) = .ok (.ok [0xD5FFFFFF]) ∧
    loadLiteral .umDefault 2 0xFFFFFFFF (some 2) = .ok (.ok [0xD4000000, 0x60000092]) ∧
    loadLiteral .umDefault 2 0xFE000000 none = .ok (.ok [0xD5FFFFFF, 0x60000092]) := by decide
/-- V-L8. -/
theorem test_literal_wide_path :
    loadLiteral .umDefault 7 0xFDFFFFFF (some 0) =
      .ok (.ok ([0xD000007E] ++ List.replicate 25 0x30000000 ++ [0xDFFFFFFF, 0x300001F8])) := by decide
/-- V-L16, V-L17, V-L20, V-L21. -/
theorem test_literal_errors :
    loadLiteral .umDefault 1 0x12345678 (some 1) = .ok (.error .scratchAliasesDestination) ∧
    loadLiteral .umDefault 1 0x02000000 none = .ok (.error .missingScratchRegister) ∧
    loadLiteral .umDefault 1 1 (some 8) = .error (.immediateOutOfRange (.operand .scratch 8)) ∧
    loadLiteral .umDefault 8 0x12345678 none = .error (.immediateOutOfRange (.operand .dst 8)) := by decide

/-! ### Checking interpreter (section 5): one step each -/

/-- "CMOV taken": `x[1]` takes `x[2]`. -/
theorem test_cmov_taken : ∃ t, step (ready [0x00000053]) = .next t ∧ t.readReg 1 = 0x33333333 ∧ t.pos = 1 :=
  ⟨_, rfl, by decide, by decide⟩
/-- "CMOV not taken": `x[3] = 0`. -/
theorem test_cmov_not_taken : ∃ t, exec (.cmov 1 2 3) ((ready []).writeReg 3 0) = .next t ∧
    t.readReg 1 = 0x22222222 := ⟨_, rfl, by decide⟩
/-- "ADD wrap": `ADD(4, 0, 3)` with `x[0] = 0xFFFFFFFF`, `x[3] = 5`. -/
theorem test_add_wrap : ∃ t, step (((ready [0x30000103]).writeReg 0 0xFFFFFFFF).writeReg 3 5) = .next t ∧
    t.readReg 4 = 4 := ⟨_, rfl, by decide⟩
/-- "ADD double": the source is also the destination. -/
theorem test_add_double : ∃ t, step ((ready [0x30000092]).writeReg 2 9) = .next t ∧ t.readReg 2 = 0x12 :=
  ⟨_, rfl, by decide⟩
/-- "NAND general": `NAND(3, 1, 2)` with `x[1] = 0xC`, `x[2] = 0xA`. -/
theorem test_nand_general : ∃ t, step (((ready [0x600000CA]).writeReg 1 0xC).writeReg 2 0xA) = .next t ∧
    t.readReg 3 = 0xFFFFFFF7 := ⟨_, rfl, by decide⟩
/-- "NAND complement". -/
theorem test_nand_complement : ∃ t, step ((ready [0x60000049]).writeReg 1 1) = .next t ∧
    t.readReg 1 = 0xFFFFFFFE := ⟨_, rfl, by decide⟩
/-- "LOADVAL": the top bits of the old value are gone. -/
theorem test_loadval : ∃ t, step ((ready [0xD000002A]).writeReg 0 0xFFFFFFFF) = .next t ∧ t.readReg 0 = 0x2A :=
  ⟨_, rfl, by decide⟩
/-- "LOADVAL max". -/
theorem test_loadval_max : ∃ t, step (ready [0xDFFFFFFF]) = .next t ∧ t.readReg 7 = 0x01FFFFFF ∧
    t.readReg 6 = 0x77777777 := ⟨_, rfl, by decide, by decide⟩

/-! ### Sessions -/

/-- N-P1: the second request emits nothing and is reported; the third is served as if it had not been issued. -/
theorem test_missing_scratch_is_atomic :
    ∃ t, runWith .umDefault 3 { ready [] with pending := [.loadLiteral 1 1 none, .loadLiteral 2 0x12345678 none,
        .loadLiteral 3 3 none] } = .next t ∧
      t.words = [0xD2000001, 0xD6000003] ∧ t.reports.map Report.error = [.missingScratchRegister] :=
  ⟨_, rfl, by decide, by decide⟩
/-- P4: the byte image of the source's scenario. -/
theorem test_scenario_image :
    ∃ t, runWith .umDefault 2 { ready [] with pending := [.encImm 0 42, .encReg 3 0 0 0] } = .next t ∧
      serialize t.words = [0xD0, 0x00, 0x00, 0x2A, 0x30, 0x00, 0x00, 0x00] := ⟨_, rfl, by decide⟩
theorem test_fatal_fault_ends_run :
    runWith .umDefault 5 (asking [.extract 0 8 25, .encImm 0 42]) = .fault (.fatal (.codecContractViolation 8 25)) := rfl
theorem test_other_code_refused : step (ready [0x1000012E]) = .refused (.otherCode 0x1000012E) := rfl
theorem test_equal_codes_refused : stepWith equalCodes (asking [.encImm 0 42]) = .refused .invalidConfiguration := rfl
/-- Placing a word at the position keeps the words before it. -/
theorem test_withFetchWord :
    ((asking [.encImm 0 1]).withFetchWord 32 0x30000103).words = [0xD000002A, 0x30000103] ∧
    ((asking [.encImm 0 1]).withFetchWord 32 0x30000103).pending = [] ∧
    ({ ready [] with pos := 2 }.withFetchWord 32 0x30000103).words = [0, 0, 0x30000103] := by decide

/-! ### Witnesses: concrete values that meet the hypotheses of each statement, at the ends of their ranges -/

theorem witness_configurations : otherCodes.valid = true ∧ Config.umDefault.valid = true ∧
    ¬ [equalCodes.opcCmov, equalCodes.opcNand, equalCodes.opcAdd, equalCodes.opcLoadval].Nodup := by decide
/-- ContractViolationExactlyBeyondWord, ExtractReadsExactlyTheField. -/
theorem witness_extract : 32 < 8 + 25 ∧ 0 + 32 ≤ 32 ∧ 32 + 0 ≤ 32 ∧
    (∃ v, serve .umDefault (.extract 0xFFFFFFFF 32 0) = .ok (.value v) ∧ v < 2 ^ 32 ∧ Nat.testBit v 31 = true) :=
  ⟨by decide, by decide, by decide, _, rfl, by decide, by decide⟩
/-- InsertReplacesExactlyTheField: one value per clause. -/
theorem witness_insert : 32 < 1 + 32 ∧ (1 + 31 ≤ 32 ∧ 2 ^ 1 ≤ 2) ∧ (1 + 31 ≤ 32 ∧ 1 < 2 ^ 1) ∧
    serve .umDefault (.insert 0 1 31 1) = .ok (.word 0x80000000) := by decide
/-- ExtractAfterInsertIsTheValue, DisjointInsertionsCommute: neighbouring fields that fill the word. -/
theorem witness_disjoint_fields : 16 + 0 ≤ 32 ∧ 0xFFFF < 2 ^ 16 ∧ 16 + 16 ≤ 32 ∧ (0 + 16 ≤ 16 ∨ 16 + 16 ≤ 0) := by
  decide
/-- FirstApplicableFaultIsReported: each request does fault. -/
theorem witness_faults :
    serve .umDefault (.encReg 16 0 0 0) = .error (.immediateOutOfRange (.operand .op 16)) ∧
    serve .umDefault (.encReg 13 0 0 0) = .error (.opcodeShapeMismatch 13) ∧
    serve .umDefault (.encReg 15 8 8 8) = .error (.immediateOutOfRange (.field 3 6 8)) ∧
    serve .umDefault (.encReg 15 7 8 8) = .error (.immediateOutOfRange (.field 3 3 8)) ∧
    serve .umDefault (.encReg 15 7 7 8) = .error (.immediateOutOfRange (.field 3 0 8)) ∧
    serve .umDefault (.encImm 8 0x2000000) = .error (.immediateOutOfRange (.field 3 25 8)) ∧
    serve .umDefault (.insert 0 1 32 2) = .error (.codecContractViolation 1 32) ∧
    serve .umDefault (.encImm 7 0x2000000) = .error (.immediateOutOfRange (.field 25 0 0x2000000)) ∧
    serve .umDefault (.insert 0 3 6 8) = .error (.immediateOutOfRange (.field 3 6 8)) ∧
    serve .umDefault (.extract 0 33 0) = .error (.codecContractViolation 33 0) ∧
    serve .umDefault (.loadLiteral 8 0 none) = .error (.immediateOutOfRange (.operand .dst 8)) := by decide
/-- RegisterWordsLeaveUnassignedBitsZero, FieldViewReadsBackEncodedWord, EncodersAreInjectiveAndDisjoint. -/
theorem witness_encoders : encodeRegisterOp otherCodes 15 7 7 7 = .ok 0xF00001FF ∧
    encodeImmediate otherCodes 7 0x1FFFFFF = .ok 0x9FFFFFFF := by decide
/-- RegisterWordsLeaveUnassignedBitsZero, its second clause: a three-register word of an accepted expansion. -/
theorem witness_expansion_register_word :
    serve otherCodes (.loadLiteral 7 0xFE000000 none) = .ok (.expansion [0x9FFFFFFF, 0x100001FF]) ∧
    (0x100001FF : Word) ∈ [(0x9FFFFFFF : Word), 0x100001FF] ∧
    (0x100001FF : Word).extractLsb' 28 4 ≠ otherCodes.opcLoadval ∧
    serve otherCodes (.encReg 15 7 7 7) = .ok (.word 0xF00001FF) := by decide
theorem witness_images : (0xF00001FF : Word).extractLsb' 28 4 ≠ otherCodes.opcLoadval ∧
    (0xF00001FF : Word).extractLsb' 9 19 = 0 ∧ (0x9FFFFFFF : Word).extractLsb' 28 4 = otherCodes.opcLoadval := by decide
/-- OtherCodesEncodeWithoutMeaning. -/
theorem witness_other_code : 14 < 16 ∧ 14 ≠ otherCodes.opcCmov.toNat ∧ 14 ≠ otherCodes.opcNand.toNat ∧
    14 ≠ otherCodes.opcAdd.toNat ∧ 14 ≠ otherCodes.opcLoadval.toNat := by decide
/-- DecodeInvertsEncode. -/
theorem witness_wellFormed : (Instr.loadval 7 0x1FFFFFF).wellFormed = true ∧ (Instr.cmov 0 7 0).wellFormed = true := by
  decide
/-- EncodeInvertsDecode, OpcodeFieldSelectsInstruction: a word with unassigned bits set, and an immediate one. -/
theorem witness_decode : decodeWord otherCodes 0xFFFFFFFF = .ok (.cmov 7 7 7) ∧
    decodeWord otherCodes 0x9FFFFFFF = .ok (.loadval 7 0x1FFFFFF) := by decide
/-- ImageHoldsWordsBigEndian, ImageDecodesWordByWord: the last word. -/
theorem witness_image : 1 < [(0xD000002A : Word), 0x30000000].length ∧
    (serialize [0xD000002A, 0x30000000]).drop (4 * 1) = [0x30, 0, 0, 0] := by decide
/-- NarrowLiteralIsOneLoad, ComplementLiteralIsLoadThenNand, WideLiteralIsTwentyEightWords, PathIsChosenByInterval. -/
theorem witness_paths : literalPath 0x01FFFFFF = .direct ∧ literalPath 0xFE000000 = .complemented ∧
    literalPath 0x02000000 = .wide ∧ literalPath 0xFDFFFFFF = .wide ∧
    2 ^ 25 ≤ (0xFDFFFFFF : Word).toNat ∧ 2 ^ 25 ≤ (~~~(0xFDFFFFFF : Word)).toNat ∧
    2 ^ 25 ≤ (0xFE000000 : Word).toNat ∧ (~~~(0xFE000000 : Word)).toNat < 2 ^ 25 ∧
    (∀ s ∈ some 7, s < 8) := by decide
/-- LiteralErrorsFollowPriority: its last clause, on a path that needs no scratch register and on the one that does. -/
theorem witness_literal_accepted : (∃ ws, serve otherCodes (.loadLiteral 7 0xFE000000 (some 7)) = .ok (.expansion ws)) ∧
    (∃ ws, serve otherCodes (.loadLiteral 7 0xFDFFFFFF (some 0)) = .ok (.expansion ws)) := ⟨⟨_, rfl⟩, ⟨_, rfl⟩⟩
/-- ExpansionLoadsTheLiteral on the two short paths: the words stand at the position, with others around them. -/
theorem witness_short_expansion : loadLiteral otherCodes 2 0xFFFFFFFF none = .ok (.ok [0x94000000, 0x10000092]) ∧
    { ready [0, 0x94000000, 0x10000092, 0] with pos := 1 }.RunsNext [0x94000000, 0x10000092] ∧
    loadLiteral otherCodes 3 0x01FFFFFF none = .ok (.ok [0x97FFFFFF]) ∧
    { ready [0x97FFFFFF] with pos := 0 }.RunsNext [0x97FFFFFF] :=
  ⟨by decide, ⟨by decide, by decide⟩, by decide, ⟨by decide, by decide⟩⟩
/-- ExpansionLoadsTheLiteral and WideExpansionNeverWraps on path 3. -/
theorem witness_wide_expansion : ∃ ws, loadLiteral otherCodes 7 0xFDFFFFFF (some 0) = .ok (.ok ws) ∧
    literalPath 0xFDFFFFFF = .wide ∧ (ready ws).RunsNext ws :=
  ⟨_, rfl, by decide, by decide, by decide⟩
/-- ComplementInvertsRegister. -/
theorem witness_complement : complement otherCodes 7 0 = .ok [0x100001C0] ∧ (ready [0x100001C0]).RunsNext [0x100001C0] :=
  ⟨by decide, by decide, by decide⟩
/-- RequestedLiteralReachesRegister. -/
theorem witness_requested_literal : ∃ ws, serve otherCodes (.loadLiteral 1 0x12345678 (some 2)) = .ok (.expansion ws) ∧
    (asking [.loadLiteral 1 0x12345678 (some 2)]).pos = (asking [.loadLiteral 1 0x12345678 (some 2)]).words.length :=
  ⟨_, rfl, by decide⟩
/-- NativeInstructionsChangeOnlyDestination: each of the four completes. -/
theorem witness_native_complete : (∃ t, exec (.cmov 7 0 7) (ready []) = .next t) ∧ (∃ t, exec (.add 7 7 7) (ready []) = .next t) ∧
    (∃ t, exec (.nand 0 7 0) (ready []) = .next t) ∧ (∃ t, exec (.loadval 7 0x1FFFFFF) (ready []) = .next t) :=
  ⟨⟨_, rfl⟩, ⟨_, rfl⟩, ⟨_, rfl⟩, ⟨_, rfl⟩⟩
/-- OnlyIllFormedInstructionsAreRefused: the refused side. -/
theorem witness_ill_formed : exec (.loadval 8 0) (ready []) = .refused .illFormedOperand := rfl
/-- StepRunsTheDecodedInstruction, StepRunsTheInstructionInTheImage. -/
theorem witness_step_runs : (ready [0x97FFFFFF]).pending = [] ∧ (ready [0x97FFFFFF]).words[(ready [0x97FFFFFF]).pos]? = some 0x97FFFFFF ∧
    decodeWord otherCodes 0x97FFFFFF = .ok (.loadval 3 0x1FFFFFF) ∧
    decodeBytes otherCodes ((serialize (ready [0x97FFFFFF]).words).drop (4 * (ready [0x97FFFFFF]).pos)) =
      .ok (.loadval 3 0x1FFFFFF, []) := by decide
/-- RunStopsAtUnknownCodeOrEnd: a word without a meaning, a word with one, and the end. -/
theorem witness_run_stops : hasMeaning otherCodes 0x30000000 = false ∧ hasMeaning otherCodes 0x97FFFFFF = true ∧
    stepWith otherCodes (ready []) = .fault .runEnded := ⟨by decide, by decide, rfl⟩
/-- InterpreterRunsAllWordsOrRefuses, InterpreterRunsCompose: both outcomes. -/
theorem witness_interpret : (∃ t, interpret otherCodes (Vector.replicate 8 5) [0x97FFFFFF] = .next t) ∧
    interpret otherCodes (Vector.replicate 8 5) [0x97FFFFFF, 0x30000000] = .refused (.otherCode 0x30000000) :=
  ⟨⟨_, rfl⟩, rfl⟩
/-- RequestOnlyAppendsItsResult, OutputIsConcatenationInIssueOrder. -/
theorem witness_requests : [Request.extract 0xD000002A 4 28, .encImm 0 42].map (serve .umDefault) =
    [Reply.value 13, .word 0xD000002A].map Except.ok := by decide
/-- UserErrorIsReportedAndEmitsNothing, FailedRequestLeavesOnlyReplyAndReport. -/
theorem witness_user_error : serve otherCodes (.loadLiteral 1 0x12345678 none) = .ok (.error .missingScratchRegister) ∧
    (asking [.loadLiteral 1 0x12345678 none, .encImm 0 1]).pending = .loadLiteral 1 0x12345678 none :: [.encImm 0 1] := by
  decide
/-- FailedRequestLeavesOnlyReplyAndReport: the run without the failed request goes on, with a reply of its own. -/
theorem witness_run_without_failed_request : ∃ u, runWith otherCodes 1 (asking [.extract 0xD000002A 4 28]) = .next u ∧
    u.replies = [.word 0xD000002A, .value 13] := ⟨_, rfl, by decide⟩
/-- CallbackOutcomeChangesNothing, WordsAreOnlyAppended: a run of two steps, one request and one word. -/
theorem witness_run : ∃ t, runWith .umDefault 2 (asking [.encImm 0 1]) = .next t ∧ t.pos = 2 := ⟨_, rfl, by decide⟩
/-- EveryStepKeepsSessionInvariant: a session other than reset meets it and steps. -/
theorem witness_invariant : (asking [.encImm 0 1]).Inv ∧ ∃ t, stepWith .umDefault (asking [.encImm 0 1]) = .next t :=
  ⟨⟨by decide, by decide, by decide⟩, ⟨_, rfl⟩⟩

end Sys2Proof.Tests
end

section
/-! The default configuration `UM_DEFAULT` (00_scope.md R10; its values are the spec's general knowledge, log 1). -/

namespace Sys2Proof.Machine

@[simp] theorem Config_umDefault_opcCmov : Config.umDefault.opcCmov = 0 := rfl
@[simp] theorem Config_umDefault_opcNand : Config.umDefault.opcNand = 6 := rfl
@[simp] theorem Config_umDefault_opcAdd : Config.umDefault.opcAdd = 3 := rfl
@[simp] theorem Config_umDefault_opcLoadval : Config.umDefault.opcLoadval = 13 := rfl

/-- The general statements about valid configurations speak of `UM_DEFAULT`: its codes are pairwise distinct. -/
@[simp] theorem Config_umDefault_valid : Config.umDefault.valid = true := by
  have hcodes : [(0 : BitVec 4), 6, 3, 13].Nodup := by decide
  rw [Config_valid_iff]
  exact hcodes

/-- Settles O1: validity is the distinctness of the four codes, and each code is read off its field. -/
theorem defaultConfigurationHasItsCodes : Obligations.DefaultConfigurationHasItsCodes := by
  unfold Obligations.DefaultConfigurationHasItsCodes
  refine ⟨Config_umDefault_valid, ?cmov, ?nand, ?add, ?loadval⟩
  case cmov => rw [Config_umDefault_opcCmov]; rfl
  case nand => rw [Config_umDefault_opcNand]; rfl
  case add => rw [Config_umDefault_opcAdd]; rfl
  case loadval => rw [Config_umDefault_opcLoadval]; rfl

end Sys2Proof.Machine
end

section
/-! The state of a session (10_state.md): what registers read after a write, what serving a request does, and what a run
of any length keeps. -/

namespace Sys2Proof.Machine

/-! ### Registers -/

theorem State.readReg_writeReg_same (s : State) {r : Nat} (v : Word) (hr : r < 8) :
    (s.writeReg r v).readReg r = v := by
  simp [State.readReg, hr]

theorem State.readReg_writeReg_of_ne (s : State) {r r' : Nat} (v : Word) (hne : r' ≠ r) :
    (s.writeReg r v).readReg r' = s.readReg r' := by
  simp [State.readReg, Vector.getElem?_setIfInBounds_ne hne.symm]

/-- Settles O37: the register written reads back the value, any other one is not the register written. -/
theorem everyRegisterReadsBackItsWrite : Obligations.EveryRegisterReadsBackItsWrite := by
  unfold Obligations.EveryRegisterReadsBackItsWrite
  intro s r r' v hr
  split
  case isTrue heq => rw [heq, s.readReg_writeReg_same v hr]
  case isFalse hne => exact s.readReg_writeReg_of_ne v hne

/-! ### The step that serves a request -/

/-- A request that does not fault takes the step that delivers its reply. -/
theorem stepWith_serve_ok {cfg : Config} {s : State} {r : Request} {rest : List Request} {reply : Reply}
    (hv : cfg.valid = true) (hp : s.pending = r :: rest) (hr : serve cfg r = .ok reply) :
    stepWith cfg s = .next { s.deliver reply with pending := rest } := by
  rw [stepWith_serveRequest hv hp, serveRequest, hr]

/-- A request that ends in a fatal fault ends the session with it. -/
theorem stepWith_serve_error {cfg : Config} {s : State} {r : Request} {rest : List Request} {f : Fatal}
    (hv : cfg.valid = true) (hp : s.pending = r :: rest) (hr : serve cfg r = .error f) :
    stepWith cfg s = .fault (.fatal f) := by
  rw [stepWith_serveRequest hv hp, serveRequest, hr]
  rfl

/-- Settles O44: the step is the delivery of the reply, which reports nothing but a user-facing error. -/
theorem requestOnlyAppendsItsResult : Obligations.RequestOnlyAppendsItsResult := by
  unfold Obligations.RequestOnlyAppendsItsResult
  intro cfg s r rest reply hv hp hr
  refine ⟨_, stepWith_serve_ok hv hp hr, s.deliver_words reply, s.deliver_replies reply, rfl, s.deliver_regs reply,
    s.deliver_pos reply, s.deliver_callback reply, fun hnone => ?_⟩
  rw [s.deliver_reports reply, s.reportReply_eq_self reply hnone]

/-- Settles O50: the outcome of the step is decided by `serve cfg r`, which sees neither session. -/
theorem requestResultIgnoresTheSession : Obligations.RequestResultIgnoresTheSession := by
  unfold Obligations.RequestResultIgnoresTheSession
  intro cfg s s' r rest rest' hv hp hp'
  cases hr : serve cfg r with
  | ok reply =>
    rw [stepWith_serve_ok hv hp hr, stepWith_serve_ok hv hp' hr]
    refine ⟨fun t ht => ?next, nofun⟩
    case next =>
      cases ht
      exact ⟨_, reply, rfl, s.deliver_words reply, s'.deliver_words reply, s.deliver_replies reply,
        s'.deliver_replies reply⟩
  | error f =>
    rw [stepWith_serve_error hv hp hr, stepWith_serve_error hv hp' hr]
    exact ⟨nofun, fun _ hf => hf⟩

/-! ### What a run of any length keeps -/

/-- A relation that holds from a session to itself, composes, and holds across every step holds across every run. -/
theorem runWith_induction {cfg : Config} {R : State → State → Prop} (refl : ∀ s, R s s)
    (trans : ∀ s t u, R s t → R t u → R s u) (step : ∀ s t, stepWith cfg s = .next t → R s t)
    {n : Nat} {s t : State} (h : runWith cfg n s = .next t) : R s t := by
  induction n generalizing s with
  | zero =>
    cases h
    exact refl t
  | succ n ih =>
    rw [runWith_succ] at h
    cases hs : stepWith cfg s with
    | next u =>
      rw [hs] at h
      exact trans s u t (step s u hs) (ih h)
    | fault f => rw [hs] at h; cases h
    | refused q => rw [hs] at h; cases h

/-- `t` is a later point of the session at `s`: what was emitted, answered and reported is still there, in its place
(R21), the driver's callback is the same (R78), and with no request open none opens and no word is emitted. -/
structure State.Extends (s t : State) : Prop where
  words : s.words <+: t.words
  replies : s.replies <+: t.replies
  reports : s.reports <+: t.reports
  callback : t.callback = s.callback
  quiet : s.pending = [] → t.pending = [] ∧ t.words = s.words

theorem State.Extends.refl (s : State) : s.Extends s :=
  ⟨List.prefix_rfl, List.prefix_rfl, List.prefix_rfl, rfl, fun hp => ⟨hp, rfl⟩⟩

theorem State.Extends.trans {s t u : State} (hst : s.Extends t) (htu : t.Extends u) : s.Extends u where
  words := hst.words.trans htu.words
  replies := hst.replies.trans htu.replies
  reports := hst.reports.trans htu.reports
  callback := htu.callback.trans hst.callback
  quiet hp := by
    obtain ⟨htp, htw⟩ := hst.quiet hp
    obtain ⟨hup, huw⟩ := htu.quiet htp
    exact ⟨hup, huw.trans htw⟩

/-- Reporting a reply adds reports at the end, if any. -/
theorem State.reports_prefix_reportReply (s : State) (reply : Reply) : s.reports <+: (s.reportReply reply).reports := by
  cases hu : reply.userError with
  | none => rw [s.reportReply_eq_self reply hu]
  | some e =>
    rw [State.reportReply, hu]
    exact List.prefix_append ..

/-- Serving a request extends the session. -/
theorem State.Extends.of_deliver {s : State} {r : Request} {rest : List Request} (reply : Reply)
    (hp : s.pending = r :: rest) : s.Extends { s.deliver reply with pending := rest } where
  words := List.prefix_append ..
  replies := List.prefix_append ..
  reports := s.reports_prefix_reportReply reply
  callback := s.deliver_callback reply
  quiet hnone := by simp [hp] at hnone

/-- An instruction extends the session: it changes a register and the position only. -/
theorem State.Extends.of_exec {i : Instr} {s t : State} (h : exec i s = .next t) : s.Extends t := by
  obtain ⟨-, v, rfl⟩ := exec_next h
  exact ⟨List.prefix_rfl, List.prefix_rfl, List.prefix_rfl, rfl, fun hp => ⟨hp, rfl⟩⟩

theorem State.Extends.of_stepWith {cfg : Config} {s t : State} (h : stepWith cfg s = .next t) : s.Extends t := by
  obtain ⟨-, ⟨r, rest, reply, hp, -, rfl⟩ | ⟨w, i, -, -, -, hexec⟩⟩ := stepWith_next h
  · exact .of_deliver reply hp
  · exact .of_exec hexec

theorem State.Extends.of_runWith {cfg : Config} {n : Nat} {s t : State} (h : runWith cfg n s = .next t) :
    s.Extends t :=
  runWith_induction .refl (fun _ _ _ => .trans) (fun _ _ => .of_stepWith) h

/-- Settles O51: a run extends the session it starts from. -/
theorem wordsAreOnlyAppended : Obligations.WordsAreOnlyAppended := by
  unfold Obligations.WordsAreOnlyAppended
  intro cfg n s t h
  have hext : s.Extends t := .of_runWith h
  exact ⟨hext.words, fun hp => (hext.quiet hp).2, hext.replies, hext.reports, hext.callback⟩

end Sys2Proof.Machine
end

section
/-! The word sink and its byte image (20_memory.md): where the bytes of a word stand in the image, what a decoder reads
from there, and what serving all open requests leaves in the sink. -/

namespace Sys2Proof.Machine

/-! ### The byte image -/

theorem serialize_length (ws : List Word) : (serialize ws).length = 4 * ws.length := by
  induction ws with
  | nil => rfl
  | cons w ws ih => rw [serialize_cons, List.length_append, wordBytes_length, ih, List.length_cons]; omega

/-- The image from byte `4 * k` on begins with the bytes of word `k`. -/
theorem serialize_drop_of_lt (ws : List Word) {k : Nat} (h : k < ws.length) :
    (serialize ws).drop (4 * k) = wordBytes ws[k] ++ serialize (ws.drop (k + 1)) := by
  rw [serialize_drop, List.drop_eq_getElem_cons h, serialize_cons]

/-- Byte `j` of word `k` is byte `4 * k + j` of the image. -/
theorem serialize_getElem? (ws : List Word) {k j : Nat} (h : k < ws.length) (hj : j < 4) :
    (serialize ws)[4 * k + j]? = (wordBytes ws[k])[j]? := by
  rw [← List.getElem?_drop, serialize_drop_of_lt ws h, List.getElem?_append_left (by rwa [wordBytes_length])]

/-- Settles O20: byte `j` of word `k` is the one `wordBytes` lists at `j`, most significant first. -/
theorem imageHoldsWordsBigEndian : Obligations.ImageHoldsWordsBigEndian := by
  unfold Obligations.ImageHoldsWordsBigEndian
  intro ws
  refine ⟨serialize_length ws, fun k h => ⟨?byte0, ?byte1, ?byte2, ?byte3⟩⟩
  case byte0 => exact serialize_getElem? ws (j := 0) h (by decide)
  case byte1 => exact serialize_getElem? ws h (by decide)
  case byte2 => exact serialize_getElem? ws h (by decide)
  case byte3 => exact serialize_getElem? ws h (by decide)

/-- Settles O21: the bytes read are those of word `k` and then the image of the words after it. -/
theorem imageDecodesWordByWord : Obligations.ImageDecodesWordByWord := by
  unfold Obligations.ImageDecodesWordByWord
  intro cfg ws k h
  rw [serialize_drop_of_lt ws h]
  exact decodeBytes_wordBytes cfg ws[k] (serialize (ws.drop (k + 1)))

/-! ### Serving all open requests -/

/-- As many steps as there are open requests serve them all: each step delivers the next reply (R34). -/
theorem runWith_serve_all {cfg : Config} (hv : cfg.valid = true) {rs : List Request} {replies : List Reply}
    (hr : rs.map (serve cfg) = replies.map Except.ok) {s : State} (hp : s.pending = rs) :
    ∃ t, runWith cfg rs.length s = .next t ∧ t.pending = [] ∧ t.words = s.words ++ replies.flatMap Reply.emitted ∧
      t.replies = s.replies ++ replies ∧ t.regs = s.regs ∧ t.pos = s.pos := by
  induction rs generalizing s replies with
  | nil =>
    obtain rfl : replies = [] := by simpa using hr.symm
    exact ⟨s, runWith_zero cfg s, hp, by simp, by simp, rfl, rfl⟩
  | cons r rest ih =>
    cases replies with
    | nil => cases hr
    | cons reply later =>
      obtain ⟨hreply, hlater⟩ := List.cons.inj hr
      have hstep := stepWith_serve_ok hv hp hreply
      obtain ⟨t, hrun, hpending, hwords, hreplies, hregs, hpos⟩ :=
        ih hlater (s := { s.deliver reply with pending := rest }) rfl
      refine ⟨t, (runWith_succ_next rest.length hstep).trans hrun, hpending, ?words, ?replies,
        hregs.trans (s.deliver_regs reply), hpos.trans (s.deliver_pos reply)⟩
      case words => simp [hwords]
      case replies => simp [hreplies]

/-- Settles O49, from the run that serves all open requests. -/
theorem outputIsConcatenationInIssueOrder : Obligations.OutputIsConcatenationInIssueOrder := by
  unfold Obligations.OutputIsConcatenationInIssueOrder
  intro cfg s replies hv hr
  exact runWith_serve_all hv hr rfl

end Sys2Proof.Machine
end

section
/-! Insertions, the encoders and the decoder (30_encoding.md, with 40_field_codec.md and 41_encoder.md): which bits an
insertion sets, what the fields of an encoded word are, and what the words of an expansion are made of. -/

namespace Sys2Proof.Machine

open Sys2Proof.Laws

/-! ### The bits and fields of an inserted word -/

/-- An insertion that succeeds stayed inside the word. -/
theorem insertUnsigned_contract_le {w w' : Word} {width lsb value : Nat}
    (h : insertUnsigned w width lsb value = .ok w') : width + lsb ≤ 32 := by
  by_contra hc
  rw [insertUnsigned_contract w value (Nat.lt_of_not_le hc)] at h
  cases h

/-- A value that fits a field has no bit beyond it. -/
theorem testBit_eq_false_of_lt_two_pow {value width i : Nat} (hv : value < 2 ^ width) (hi : width ≤ i) :
    value.testBit i = false :=
  Nat.testBit_lt_two_pow (hv.trans_le (Nat.pow_le_pow_right (by decide) hi))

/-- Every bit of an inserted word: the value's inside the field, the old word's outside (R51). -/
theorem insertUnsigned_getLsbD {w w' : Word} {width lsb value : Nat} (h : insertUnsigned w width lsb value = .ok w')
    (i : Nat) :
    w'.getLsbD i = if lsb ≤ i ∧ i < lsb + width then value.testBit (i - lsb) else w.getLsbD i := by
  have hc : width + lsb ≤ 32 := insertUnsigned_contract_le h
  have hv : value < 2 ^ width := insertUnsigned_value_lt h
  rw [insertUnsigned_ok w hc hv, Except.ok.injEq] at h
  subst h
  simp only [BitVec.getLsbD_or, BitVec.getLsbD_and, BitVec.getLsbD_not, BitVec.getLsbD_ofNat, Nat.testBit_shiftLeft,
    mask, Nat.testBit_two_pow_sub_one]
  split
  case isTrue hin =>
    obtain ⟨hlow, hhigh⟩ := hin
    have h32 : i < 32 := by omega
    have hoff : i - lsb < width := by omega
    simp [hlow, h32, hoff]
  case isFalse hout =>
    have hmask : (decide (i ≥ lsb) && decide (i - lsb < width)) = false := by simp; omega
    have hvalue : (decide (i ≥ lsb) && value.testBit (i - lsb)) = false := by
      by_cases hlow : lsb ≤ i
      case pos => simp [testBit_eq_false_of_lt_two_pow hv (i := i - lsb) (by omega)]
      case neg => simp [hlow]
    by_cases h32 : i < 32
    case pos => simp [hmask, hvalue, h32]
    case neg => simp [h32, BitVec.getLsbD_of_ge w i (Nat.le_of_not_lt h32)]

/-- The field inserted reads back the value (R52). -/
theorem fieldValue_insertUnsigned_same {w w' : Word} {width lsb value : Nat}
    (h : insertUnsigned w width lsb value = .ok w') : fieldValue w' width lsb = value := by
  refine Nat.eq_of_testBit_eq fun i => ?_
  rw [fieldValue_testBit, insertUnsigned_getLsbD h]
  by_cases hi : i < width
  case pos => simp [hi]
  case neg =>
    simp [hi, testBit_eq_false_of_lt_two_pow (insertUnsigned_value_lt h) (Nat.le_of_not_lt hi)]

/-- A field that does not meet the one inserted keeps its value (R52). -/
theorem fieldValue_insertUnsigned_of_disjoint {w w' : Word} {width lsb value width' lsb' : Nat}
    (h : insertUnsigned w width lsb value = .ok w') (hd : lsb + width ≤ lsb' ∨ lsb' + width' ≤ lsb) :
    fieldValue w' width' lsb' = fieldValue w width' lsb' := by
  refine Nat.eq_of_testBit_eq fun i => ?_
  rw [fieldValue_testBit, fieldValue_testBit, insertUnsigned_getLsbD h]
  by_cases hi : i < width'
  case pos => rw [if_neg (by omega)]
  case neg => simp [hi]

/-- An insertion inside its contract succeeds. -/
theorem insertUnsigned_exists (w : Word) {width lsb value : Nat} (hc : width + lsb ≤ 32) (hv : value < 2 ^ width) :
    ∃ w', insertUnsigned w width lsb value = .ok w' :=
  ⟨_, insertUnsigned_ok w hc hv⟩

/-! ### The encoders -/

/-- The converse of `bind_eq_ok`: codec results that succeed one after the other. -/
theorem bind_ok_intro {α β : Type} {x : Except Fatal α} {f : α → Except Fatal β} {a : α} {y : β} (hx : x = .ok a)
    (hf : f a = .ok y) : (x >>= f) = .ok y := by
  rw [hx]
  exact hf

theorem Config_immShape_eq_false_iff (cfg : Config) (opcode : Nat) :
    cfg.immShape opcode = false ↔ opcode ≠ cfg.opcLoadval.toNat := by
  simp [Config.immShape]

/-- An accepted ENC_REG has a code of the three-register shape, and its word is four insertions into 0 (R54). -/
theorem encodeRegisterOp_inv {cfg : Config} {o a b c : Nat} {w : Word} (h : encodeRegisterOp cfg o a b c = .ok w) :
    cfg.immShape o = false ∧ ∃ w₁ w₂ w₃, insertUnsigned 0 4 28 o = .ok w₁ ∧ insertUnsigned w₁ 3 6 a = .ok w₂ ∧
      insertUnsigned w₂ 3 3 b = .ok w₃ ∧ insertUnsigned w₃ 3 0 c = .ok w := by
  unfold encodeRegisterOp at h
  split at h
  case isTrue => cases h
  case isFalse =>
    split at h
    case isTrue => cases h
    case isFalse hshape =>
      obtain ⟨w₁, ho, h⟩ := bind_eq_ok h
      obtain ⟨w₂, ha, h⟩ := bind_eq_ok h
      obtain ⟨w₃, hb, hc⟩ := bind_eq_ok h
      exact ⟨Bool.eq_false_iff.mpr hshape, w₁, w₂, w₃, ho, ha, hb, hc⟩

/-- ENC_REG accepts every code outside the immediate shape and all registers, with a meaning or without (R44, R54). -/
theorem encodeRegisterOp_exists {cfg : Config} {o a b c : Nat} (ho : o < 16) (hl : o ≠ cfg.opcLoadval.toNat)
    (ha : a < 8) (hb : b < 8) (hc : c < 8) : ∃ w, encodeRegisterOp cfg o a b c = .ok w := by
  obtain ⟨w₁, h₁⟩ := insertUnsigned_exists 0 (width := 4) (lsb := 28) (by decide) ho
  obtain ⟨w₂, h₂⟩ := insertUnsigned_exists w₁ (width := 3) (lsb := 6) (by decide) ha
  obtain ⟨w₃, h₃⟩ := insertUnsigned_exists w₂ (width := 3) (lsb := 3) (by decide) hb
  obtain ⟨w, h₄⟩ := insertUnsigned_exists w₃ (width := 3) (lsb := 0) (by decide) hc
  refine ⟨w, ?_⟩
  have hshape : cfg.immShape o = false := (Config_immShape_eq_false_iff cfg o).mpr hl
  rw [encodeRegisterOp, if_neg (Nat.not_le.mpr ho), if_neg (Bool.eq_false_iff.mp hshape)]
  exact bind_ok_intro h₁ (bind_ok_intro h₂ (bind_ok_intro h₃ h₄))

/-- The bits of an ENC_REG word outside its four fields are zero (R39). -/
theorem encodeRegisterOp_unassigned {cfg : Config} {o a b c : Nat} {w : Word}
    (h : encodeRegisterOp cfg o a b c = .ok w) {i : Nat} (hlo : 9 ≤ i) (hhi : i < 28) : w.getLsbD i = false := by
  obtain ⟨-, w₁, w₂, w₃, ho, ha, hb, hc⟩ := encodeRegisterOp_inv h
  calc w.getLsbD i
    _ = w₃.getLsbD i := by rw [insertUnsigned_getLsbD hc, if_neg (by omega)]
    _ = w₂.getLsbD i := by rw [insertUnsigned_getLsbD hb, if_neg (by omega)]
    _ = w₁.getLsbD i := by rw [insertUnsigned_getLsbD ha, if_neg (by omega)]
    _ = (0 : Word).getLsbD i := by rw [insertUnsigned_getLsbD ho, if_neg (by omega)]
    _ = false := BitVec.getLsbD_zero

/-- The four fields of an ENC_REG word are its operands (R57 (a)). -/
theorem encodeRegisterOp_fields {cfg : Config} {o a b c : Nat} {w : Word} (h : encodeRegisterOp cfg o a b c = .ok w) :
    fieldValue w 4 28 = o ∧ fieldValue w 3 6 = a ∧ fieldValue w 3 3 = b ∧ fieldValue w 3 0 = c := by
  obtain ⟨-, w₁, w₂, w₃, ho, ha, hb, hc⟩ := encodeRegisterOp_inv h
  refine ⟨?opcode, ?dest, ?srcA, fieldValue_insertUnsigned_same hc⟩
  case opcode =>
    rw [fieldValue_insertUnsigned_of_disjoint hc (by decide), fieldValue_insertUnsigned_of_disjoint hb (by decide),
      fieldValue_insertUnsigned_of_disjoint ha (by decide), fieldValue_insertUnsigned_same ho]
  case dest =>
    rw [fieldValue_insertUnsigned_of_disjoint hc (by decide), fieldValue_insertUnsigned_of_disjoint hb (by decide),
      fieldValue_insertUnsigned_same ha]
  case srcA => rw [fieldValue_insertUnsigned_of_disjoint hc (by decide), fieldValue_insertUnsigned_same hb]

/-- The three fields of an ENC_IMM word are the code of the immediate shape and its operands (R57 (a)). -/
theorem encodeImmediate_fields {cfg : Config} {a v : Nat} {w : Word} (h : encodeImmediate cfg a v = .ok w) :
    fieldValue w 4 28 = cfg.opcLoadval.toNat ∧ fieldValue w 3 25 = a ∧ fieldValue w 25 0 = v := by
  obtain ⟨w₁, ho, h⟩ := bind_eq_ok h
  obtain ⟨w₂, ha, hv⟩ := bind_eq_ok h
  refine ⟨?opcode, ?dest, fieldValue_insertUnsigned_same hv⟩
  case opcode =>
    rw [fieldValue_insertUnsigned_of_disjoint hv (by decide), fieldValue_insertUnsigned_of_disjoint ha (by decide),
      fieldValue_insertUnsigned_same ho]
  case dest => rw [fieldValue_insertUnsigned_of_disjoint hv (by decide), fieldValue_insertUnsigned_same ha]

/-- The opcode bits of an ENC_IMM word are the code of the immediate shape. -/
theorem encodeImmediate_opcode {cfg : Config} {a v : Nat} {w : Word} (h : encodeImmediate cfg a v = .ok w) :
    w.extractLsb' 28 4 = cfg.opcLoadval := by
  obtain ⟨hop, -, -⟩ := encodeImmediate_fields h
  rw [fieldValue_eq_extractLsb'] at hop
  exact BitVec.eq_of_toNat_eq hop

/-- The field view of an ENC_REG word (R57 (a)). -/
theorem fieldView_encodeRegisterOp {cfg : Config} {o a b c : Nat} {w : Word}
    (h : encodeRegisterOp cfg o a b c = .ok w) : fieldView cfg w = .threeRegister o a b c := by
  obtain ⟨hop, hdest, hsrcA, hsrcB⟩ := encodeRegisterOp_fields h
  obtain ⟨hshape, -⟩ := encodeRegisterOp_inv h
  simp [fieldView, hop, hdest, hsrcA, hsrcB, hshape]

/-! ### The decoder, one equation per field view (R68) -/

theorem decodeWord_immediate {cfg : Config} {w : Word} {o a imm : Nat} (h : fieldView cfg w = .immediate o a imm) :
    decodeWord cfg w = .ok (.loadval a imm) := by
  rw [decodeWord, h]

theorem decodeWord_threeRegister {cfg : Config} {w : Word} {o a b c : Nat}
    (h : fieldView cfg w = .threeRegister o a b c) :
    decodeWord cfg w =
      if o = cfg.opcNand.toNat then .ok (.nand a b c)
      else if o = cfg.opcAdd.toNat then .ok (.add a b c)
      else if o = cfg.opcCmov.toNat then .ok (.cmov a b c)
      else .error (.otherCode w) := by
  rw [decodeWord, h]

/-- A table word that decodes to `i` as a word does so as the bytes of the image. -/
theorem decodeTableWord_eq_some {nbits n : Nat} {i : Instr} (h : decodeWord .umDefault (tableWord nbits n) = .ok i) :
    decodeTableWord nbits n = some i := by
  have hbytes := decodeBytes_wordBytes .umDefault (tableWord nbits n) []
  rw [List.append_nil, h] at hbytes
  rw [decodeTableWord, hbytes]

/-- A table word the decoder refuses is refused as the bytes of the image. -/
theorem decodeTableWord_eq_none {nbits n : Nat} {e : DecodeError}
    (h : decodeWord .umDefault (tableWord nbits n) = .error e) : decodeTableWord nbits n = none := by
  have hbytes := decodeBytes_wordBytes .umDefault (tableWord nbits n) []
  rw [List.append_nil, h] at hbytes
  rw [decodeTableWord, hbytes]

/-! ### The words of an expansion -/

/-- A word that one of the two encoders gave. -/
inductive Encoded (cfg : Config) (w : Word) : Prop where
  | register {o a b c : Nat} (h : encodeRegisterOp cfg o a b c = .ok w)
  | immediate {a v : Nat} (h : encodeImmediate cfg a v = .ok w)

/-- An encoded word whose code is not that of the immediate shape has its unassigned bits zero (R39). -/
theorem Encoded.unassigned {cfg : Config} {w : Word} (h : Encoded cfg w) (hop : w.extractLsb' 28 4 ≠ cfg.opcLoadval)
    {i : Nat} (hlo : 9 ≤ i) (hhi : i < 28) : w.getLsbD i = false := by
  cases h with
  | register h => exact encodeRegisterOp_unassigned h hlo hhi
  | immediate h => exact absurd (encodeImmediate_opcode h) hop

theorem directExpansion_inv {cfg : Config} {dst : Nat} {v : Word} {ws : List Word}
    (h : directExpansion cfg dst v = .ok ws) : ∃ w, encodeImmediate cfg dst v.toNat = .ok w ∧ ws = [w] := by
  obtain ⟨w, hw, h⟩ := bind_eq_ok h
  cases h
  exact ⟨w, hw, rfl⟩

theorem complementExpansion_inv {cfg : Config} {dst : Nat} {v : Word} {ws : List Word}
    (h : complementExpansion cfg dst v = .ok ws) :
    ∃ w₀ w₁, encodeImmediate cfg dst (~~~v).toNat = .ok w₀ ∧
      encodeRegisterOp cfg cfg.opcNand.toNat dst dst dst = .ok w₁ ∧ ws = [w₀, w₁] := by
  obtain ⟨w₀, hload, h⟩ := bind_eq_ok h
  obtain ⟨tail, htail, h⟩ := bind_eq_ok h
  obtain ⟨w₁, hnand, htail⟩ := bind_eq_ok htail
  cases htail
  cases h
  exact ⟨w₀, w₁, hload, hnand, rfl⟩

theorem wideExpansion_inv {cfg : Config} {dst s : Nat} {v : Word} {ws : List Word}
    (h : wideExpansion cfg dst v s = .ok ws) :
    ∃ loadHigh double loadLow combine, encodeImmediate cfg s (high7 v) = .ok loadHigh ∧
      encodeRegisterOp cfg cfg.opcAdd.toNat s s s = .ok double ∧
      encodeImmediate cfg dst (low25 v) = .ok loadLow ∧
      encodeRegisterOp cfg cfg.opcAdd.toNat dst dst s = .ok combine ∧
      ws = [loadHigh] ++ List.replicate 25 double ++ [loadLow] ++ [combine] := by
  obtain ⟨loadHigh, hhigh, h⟩ := bind_eq_ok h
  obtain ⟨double, hdouble, h⟩ := bind_eq_ok h
  obtain ⟨loadLow, hlow, h⟩ := bind_eq_ok h
  obtain ⟨combine, hcombine, h⟩ := bind_eq_ok h
  cases h
  exact ⟨loadHigh, double, loadLow, combine, hhigh, hdouble, hlow, hcombine, rfl⟩

/-- An accepted LOAD_LITERAL is the expansion of the path its value takes (R60 to R64). -/
theorem loadLiteral_inv {cfg : Config} {dst : Nat} {v : Word} {scratch : Option Nat} {ws : List Word}
    (h : loadLiteral cfg dst v scratch = .ok (.ok ws)) :
    (literalPath v = .direct ∧ directExpansion cfg dst v = .ok ws) ∨
    (literalPath v = .complemented ∧ complementExpansion cfg dst v = .ok ws) ∨
    (literalPath v = .wide ∧ ∃ s, scratch = some s ∧ s ≠ dst ∧ wideExpansion cfg dst v s = .ok ws) := by
  obtain ⟨_, -, hexpand⟩ := bind_eq_ok h
  clear h
  split at hexpand
  case h_1 hpath =>
    obtain ⟨_, hws, hexpand⟩ := bind_eq_ok hexpand
    cases hexpand
    exact .inl ⟨hpath, hws⟩
  case h_2 hpath =>
    obtain ⟨_, hws, hexpand⟩ := bind_eq_ok hexpand
    cases hexpand
    exact .inr (.inl ⟨hpath, hws⟩)
  case h_3 => cases hexpand
  case h_4 s hpath =>
    split at hexpand
    case isTrue => cases hexpand
    case isFalse hne =>
      obtain ⟨_, hws, hexpand⟩ := bind_eq_ok hexpand
      cases hexpand
      exact .inr (.inr ⟨hpath, s, rfl, hne, hws⟩)

/-- Every word of an accepted expansion came from one of the two encoders. -/
theorem loadLiteral_encoded {cfg : Config} {dst : Nat} {v : Word} {scratch : Option Nat} {ws : List Word}
    (h : loadLiteral cfg dst v scratch = .ok (.ok ws)) {w : Word} (hw : w ∈ ws) : Encoded cfg w := by
  obtain ⟨-, hdirect⟩ | ⟨-, hcomplemented⟩ | ⟨-, s, -, -, hwide⟩ := loadLiteral_inv h
  case inl =>
    obtain ⟨_, hload, rfl⟩ := directExpansion_inv hdirect
    cases List.mem_singleton.mp hw
    exact .immediate hload
  case inr.inl =>
    obtain ⟨_, _, hload, hnand, rfl⟩ := complementExpansion_inv hcomplemented
    obtain rfl | rfl := List.mem_pair.mp hw
    · exact .immediate hload
    · exact .register hnand
  case inr.inr =>
    obtain ⟨_, _, _, _, hhigh, hdouble, hlow, hcombine, rfl⟩ := wideExpansion_inv hwide
    simp only [List.mem_append, List.mem_singleton, List.mem_replicate] at hw
    obtain ((rfl | ⟨-, rfl⟩) | rfl) | rfl := hw
    · exact .immediate hhigh
    · exact .register hdouble
    · exact .immediate hlow
    · exact .register hcombine

/-! ### The requests ENC_REG and LOAD_LITERAL -/

theorem serve_encReg_ok_iff {cfg : Config} {o a b c : Nat} {w : Word} :
    serve cfg (.encReg o a b c) = .ok (.word w) ↔ encodeRegisterOp cfg o a b c = .ok w := by
  refine ⟨fun h => ?forward, fun h => bind_ok_intro h rfl⟩
  case forward =>
    obtain ⟨_, hw, h⟩ := bind_eq_ok h
    cases h
    exact hw

/-- A LOAD_LITERAL answered with words is an accepted one. -/
theorem loadLiteral_of_serve_expansion {cfg : Config} {dst : Nat} {v : Word} {scratch : Option Nat} {ws : List Word}
    (h : serve cfg (.loadLiteral dst v scratch) = .ok (.expansion ws)) :
    loadLiteral cfg dst v scratch = .ok (.ok ws) := by
  obtain ⟨result, hresult, h⟩ := bind_eq_ok h
  cases result with
  | ok _ => cases h; exact hresult
  | error _ => cases h

/-! ### The statements -/

/-- Settles O11: an ENC_REG word is four insertions that miss bits 27 to 9, and a word of an expansion is an ENC_REG
word or carries the immediate code. -/
theorem registerWordsLeaveUnassignedBitsZero : Obligations.RegisterWordsLeaveUnassignedBitsZero := by
  unfold Obligations.RegisterWordsLeaveUnassignedBitsZero
  refine ⟨?encReg, ?expansion⟩
  case encReg =>
    intro cfg o a b c w h i hlo hhi
    exact encodeRegisterOp_unassigned (serve_encReg_ok_iff.mp h) hlo hhi
  case expansion =>
    intro cfg dst v scratch ws w h hw hop i hlo hhi
    exact (loadLiteral_encoded (loadLiteral_of_serve_expansion h) hw).unassigned hop hlo hhi

/-- Settles O15: the word's field view gives the code back, and the decoder knows no instruction of that code. -/
theorem otherCodesEncodeWithoutMeaning : Obligations.OtherCodesEncodeWithoutMeaning := by
  unfold Obligations.OtherCodesEncodeWithoutMeaning
  intro cfg o a b c ho ha hb hc hcmov hnand hadd hloadval
  obtain ⟨w, hw⟩ := encodeRegisterOp_exists ho hloadval ha hb hc
  refine ⟨w, serve_encReg_ok_iff.mpr hw, ?_⟩
  rw [decodeWord_threeRegister (fieldView_encodeRegisterOp hw), if_neg hnand, if_neg hadd, if_neg hcmov]

/-- Settles O16: each word's field view is computed, and the decoder's equation for that view names the instruction. -/
theorem specWordsDecodeToTheirInstructions : Obligations.SpecWordsDecodeToTheirInstructions := by
  unfold Obligations.SpecWordsDecodeToTheirInstructions
  refine ⟨?cmov, ?add, ?nand, ?loadval, ?other⟩
  case cmov =>
    have hview : fieldView .umDefault (tableWord 32 0x00000053) = .threeRegister 0 1 2 3 := by decide
    exact decodeTableWord_eq_some (decodeWord_threeRegister hview)
  case add =>
    have hview : fieldView .umDefault (tableWord 32 0x30000103) = .threeRegister 3 4 0 3 := by decide
    exact decodeTableWord_eq_some (decodeWord_threeRegister hview)
  case nand =>
    have hview : fieldView .umDefault (tableWord 32 0x600000CA) = .threeRegister 6 3 1 2 := by decide
    exact decodeTableWord_eq_some (decodeWord_threeRegister hview)
  case loadval =>
    have hview : fieldView .umDefault (tableWord 32 0xDE345678) = .immediate 13 7 0x345678 := by decide
    exact decodeTableWord_eq_some (decodeWord_immediate hview)
  case other =>
    have hview : fieldView .umDefault (tableWord 32 0x1000012E) = .threeRegister 1 4 5 6 := by decide
    exact decodeTableWord_eq_none (decodeWord_threeRegister hview)

end Sys2Proof.Machine
end

section
/-! The bit-field codec (40_field_codec.md R49 to R52): when its two operations fault, which bits they read and replace,
and how insertions into different fields go together. -/

namespace Sys2Proof.Machine

/-! ### The contract -/

theorem extractUnsigned_contract (w : Word) {width lsb : Nat} (h : 32 < width + lsb) :
    extractUnsigned w width lsb = .error (.codecContractViolation width lsb) :=
  if_pos h

/-- An extraction raises the contract violation exactly beyond the word (R49). -/
theorem extractUnsigned_eq_contract_iff (w : Word) (width lsb : Nat) :
    extractUnsigned w width lsb = .error (.codecContractViolation width lsb) ↔ 32 < width + lsb := by
  refine ⟨fun h => ?beyond, extractUnsigned_contract w⟩
  case beyond =>
    by_contra hc
    rw [extractUnsigned_ok w (Nat.le_of_not_lt hc)] at h
    cases h

/-- An insertion raises the contract violation exactly beyond the word, whatever the value (R49). -/
theorem insertUnsigned_eq_contract_iff (w : Word) (width lsb value : Nat) :
    insertUnsigned w width lsb value = .error (.codecContractViolation width lsb) ↔ 32 < width + lsb := by
  refine ⟨fun h => ?beyond, insertUnsigned_contract w value⟩
  case beyond =>
    by_contra hc
    have hin : width + lsb ≤ 32 := Nat.le_of_not_lt hc
    by_cases hv : value < 2 ^ width
    case pos => rw [insertUnsigned_ok w hin hv] at h; cases h
    case neg => rw [insertUnsigned_range w hin (Nat.le_of_not_lt hv)] at h; cases h

/-! ### Fields and bits -/

/-- A field's value, in the arithmetic of R50. -/
theorem fieldValue_eq_div_mod (w : Word) (width lsb : Nat) :
    fieldValue w width lsb = w.toNat / 2 ^ lsb % 2 ^ width := by
  rw [fieldValue, Nat.shiftRight_eq_div_pow]

theorem fieldValue_width_zero (w : Word) (lsb : Nat) : fieldValue w 0 lsb = 0 :=
  Nat.mod_one _

/-- A field of width 0 has no bit an insertion could replace. -/
theorem insertUnsigned_width_zero (w : Word) {lsb : Nat} (h : lsb ≤ 32) : insertUnsigned w 0 lsb 0 = .ok w := by
  obtain ⟨w', hw'⟩ := insertUnsigned_exists w (width := 0) (lsb := lsb) (value := 0) (by omega) (by decide)
  have heq : w' = w := BitVec.eq_of_getLsbD_eq fun i _ => by
    rw [insertUnsigned_getLsbD hw', if_neg (by omega)]
  rw [hw', heq]

/-- Two insertions into disjoint fields give the same word in either order: a bit lies in at most one of the fields. -/
theorem insertUnsigned_comm {w w₁ w₂ w₁₂ w₂₁ : Word} {width₁ lsb₁ v₁ width₂ lsb₂ v₂ : Nat}
    (hd : lsb₁ + width₁ ≤ lsb₂ ∨ lsb₂ + width₂ ≤ lsb₁)
    (h₁ : insertUnsigned w width₁ lsb₁ v₁ = .ok w₁) (h₁₂ : insertUnsigned w₁ width₂ lsb₂ v₂ = .ok w₁₂)
    (h₂ : insertUnsigned w width₂ lsb₂ v₂ = .ok w₂) (h₂₁ : insertUnsigned w₂ width₁ lsb₁ v₁ = .ok w₂₁) :
    w₁₂ = w₂₁ := by
  refine BitVec.eq_of_getLsbD_eq fun i _ => ?_
  rw [insertUnsigned_getLsbD h₁₂, insertUnsigned_getLsbD h₁, insertUnsigned_getLsbD h₂₁, insertUnsigned_getLsbD h₂]
  by_cases hfirst : lsb₁ ≤ i ∧ i < lsb₁ + width₁
  case pos =>
    have hsecond : ¬ (lsb₂ ≤ i ∧ i < lsb₂ + width₂) := by omega
    rw [if_neg hsecond, if_pos hfirst, if_pos hfirst]
  case neg => rw [if_neg hfirst, if_neg hfirst]

/-! ### The requests EXTRACT and INSERT -/

/-- EXTRACT answers what the codec's extraction gives, its fault included (R50). -/
theorem serve_extract (cfg : Config) (w : Word) (width lsb : Nat) :
    serve cfg (.extract w width lsb) = (extractUnsigned w width lsb).map Reply.value := by
  rw [serve]
  cases extractUnsigned w width lsb <;> rfl

/-- INSERT answers what the codec's insertion gives, its faults included (R51). -/
theorem serve_insert (cfg : Config) (w : Word) (width lsb value : Nat) :
    serve cfg (.insert w width lsb value) = (insertUnsigned w width lsb value).map Reply.word := by
  rw [serve]
  cases insertUnsigned w width lsb value <;> rfl

/-! ### The statements -/

/-- Settles O3: each operation's faults, by the cases of its checks; a field of width 0 holds no bit. -/
theorem contractViolationExactlyBeyondWord : Obligations.ContractViolationExactlyBeyondWord := by
  unfold Obligations.ContractViolationExactlyBeyondWord
  intro w width lsb value
  refine ⟨extractUnsigned_eq_contract_iff w width lsb, insertUnsigned_eq_contract_iff w width lsb value,
    fun h => ⟨?extract, insertUnsigned_width_zero w h⟩, rfl⟩
  case extract => rw [extractUnsigned_ok w (by omega), fieldValue_width_zero]

/-- Settles O4: inside the contract the answer is the field's value, whose bits are the word's. -/
theorem extractReadsExactlyTheField : Obligations.ExtractReadsExactlyTheField := by
  unfold Obligations.ExtractReadsExactlyTheField
  intro cfg w width lsb
  rw [serve_extract]
  refine ⟨fun hbeyond => ?fault, fun hin => ?answer⟩
  case fault => rw [extractUnsigned_contract w hbeyond]; rfl
  case answer =>
    rw [extractUnsigned_ok w hin]
    refine ⟨fieldValue w width lsb, rfl, fieldValue_eq_div_mod w width lsb, fieldValue_lt w width lsb, fun i hi => ?_⟩
    rw [fieldValue_testBit, decide_eq_true hi, Bool.true_and]

/-- Settles O5: the three outcomes of an insertion, the last one bit by bit. -/
theorem insertReplacesExactlyTheField : Obligations.InsertReplacesExactlyTheField := by
  unfold Obligations.InsertReplacesExactlyTheField
  intro cfg w width lsb value
  rw [serve_insert]
  refine ⟨fun hbeyond => ?contract, fun hin hwide => ?range, fun hin hv => ?answer⟩
  case contract => rw [insertUnsigned_contract w value hbeyond]; rfl
  case range => rw [insertUnsigned_range w hin hwide]; rfl
  case answer =>
    obtain ⟨w', hw'⟩ := insertUnsigned_exists w hin hv
    rw [hw']
    exact ⟨w', rfl, fun i _ => insertUnsigned_getLsbD hw' i⟩

/-- Settles O6: the field inserted reads back the value, a field beside it the old word's. -/
theorem extractAfterInsertIsTheValue : Obligations.ExtractAfterInsertIsTheValue := by
  unfold Obligations.ExtractAfterInsertIsTheValue
  intro w width lsb v hin hv
  obtain ⟨w', hw'⟩ := insertUnsigned_exists w hin hv
  refine ⟨w', hw', ?same, fun width' lsb' hin' hd => ?beside⟩
  case same => rw [extractUnsigned_ok w' hin, fieldValue_insertUnsigned_same hw']
  case beside =>
    rw [extractUnsigned_ok w' hin', extractUnsigned_ok w hin', fieldValue_insertUnsigned_of_disjoint hw' hd]

/-- Settles O7: all four insertions succeed, and the words of the two orders agree in every bit. -/
theorem disjointInsertionsCommute : Obligations.DisjointInsertionsCommute := by
  unfold Obligations.DisjointInsertionsCommute
  intro w width₁ lsb₁ v₁ width₂ lsb₂ v₂ hin₁ hv₁ hin₂ hv₂ hd
  obtain ⟨w₁, hw₁⟩ := insertUnsigned_exists w hin₁ hv₁
  obtain ⟨w₂, hw₂⟩ := insertUnsigned_exists w hin₂ hv₂
  obtain ⟨w₁₂, hw₁₂⟩ := insertUnsigned_exists w₁ hin₂ hv₂
  obtain ⟨w₂₁, hw₂₁⟩ := insertUnsigned_exists w₂ hin₁ hv₁
  obtain rfl : w₁₂ = w₂₁ := insertUnsigned_comm hd hw₁ hw₁₂ hw₂ hw₂₁
  exact ⟨w₁, w₂, w₁₂, hw₁, hw₁₂, hw₂, hw₂₁⟩

end Sys2Proof.Machine
end

section
/-! The instruction encoder (41_encoder.md): exactly when each encoder answers a word, the word in closed form and the
fault of every other request, the decoder and the encoder of instructions against each other, and Complement. -/

namespace Sys2Proof.Machine

open Sys2Proof.Laws

/-! ### A word and its fields -/

/-- A field's value is a code's number exactly when the field's bits are the code. -/
theorem fieldValue_eq_toNat_iff {w : Word} {width lsb : Nat} {v : BitVec width} :
    fieldValue w width lsb = v.toNat ↔ w.extractLsb' lsb width = v := by
  rw [fieldValue_eq_extractLsb', BitVec.toNat_inj]

/-- A word whose unassigned bits are zero is the sum of its three-register fields in place (R38, R39). -/
theorem eq_ofNat_registerFields {w : Word} (h : fieldValue w 19 9 = 0) :
    w = BitVec.ofNat 32
      (fieldValue w 4 28 * 2 ^ 28 + fieldValue w 3 6 * 2 ^ 6 + fieldValue w 3 3 * 2 ^ 3 + fieldValue w 3 0) := by
  have hlt : w.toNat < 2 ^ 32 := w.isLt
  refine BitVec.eq_of_toNat_eq ?_
  simp only [BitVec.toNat_ofNat, fieldValue_eq_div_mod] at h ⊢
  omega

/-- A word is the sum of its immediate fields in place: they leave no bit out (R40). -/
theorem eq_ofNat_immediateFields (w : Word) :
    w = BitVec.ofNat 32 (fieldValue w 4 28 * 2 ^ 28 + fieldValue w 3 25 * 2 ^ 25 + fieldValue w 25 0) := by
  have hlt : w.toNat < 2 ^ 32 := w.isLt
  refine BitVec.eq_of_toNat_eq ?_
  simp only [BitVec.toNat_ofNat, fieldValue_eq_div_mod]
  omega

theorem fieldValue_and (w m : Word) (width lsb : Nat) :
    fieldValue (w &&& m) width lsb = fieldValue w width lsb &&& fieldValue m width lsb := by
  refine Nat.eq_of_testBit_eq fun i => ?_
  rw [Nat.testBit_and, fieldValue_testBit, fieldValue_testBit, fieldValue_testBit, BitVec.getLsbD_and]
  cases decide (i < width) <;> rfl

/-- Masking a word keeps a field in which the mask has every bit. -/
theorem fieldValue_and_of_eq_mask {w m : Word} {width lsb : Nat} (h : fieldValue m width lsb = mask width) :
    fieldValue (w &&& m) width lsb = fieldValue w width lsb := by
  rw [fieldValue_and, h, mask, Nat.and_two_pow_sub_one_of_lt_two_pow (fieldValue_lt w width lsb)]

/-! ### When an encoder answers a word -/

/-- The codes of a valid configuration are pairwise distinct as numbers, which is how the encoder compares them. -/
theorem Config_codes_ne {cfg : Config} (h : cfg.valid = true) :
    (cfg.opcAdd.toNat ≠ cfg.opcNand.toNat ∧ cfg.opcCmov.toNat ≠ cfg.opcNand.toNat ∧
      cfg.opcCmov.toNat ≠ cfg.opcAdd.toNat) ∧
    (cfg.opcNand.toNat ≠ cfg.opcLoadval.toNat ∧ cfg.opcAdd.toNat ≠ cfg.opcLoadval.toNat ∧
      cfg.opcCmov.toNat ≠ cfg.opcLoadval.toNat) := by
  simp only [Config.valid, Bool.and_eq_true, bne_iff_ne] at h
  obtain ⟨⟨⟨⟨⟨hcn, hca⟩, hcl⟩, hna⟩, hnl⟩, hal⟩ := h
  simp only [ne_eq, BitVec.toNat_inj]
  exact ⟨⟨Ne.symm hna, hcn, hca⟩, hnl, hal, hcl⟩

theorem encodeRegisterOp_unassigned_field {cfg : Config} {o a b c : Nat} {w : Word}
    (h : encodeRegisterOp cfg o a b c = .ok w) : fieldValue w 19 9 = 0 := by
  refine Nat.eq_of_testBit_eq fun i => ?_
  rw [fieldValue_testBit, Nat.zero_testBit]
  by_cases hi : i < 19
  case pos => rw [encodeRegisterOp_unassigned h (by omega) (by omega), Bool.and_false]
  case neg => rw [decide_eq_false hi, Bool.false_and]

/-- The word of an accepted ENC_REG in closed form (R54). -/
theorem encodeRegisterOp_word {cfg : Config} {o a b c : Nat} {w : Word} (h : encodeRegisterOp cfg o a b c = .ok w) :
    w = BitVec.ofNat 32 (o * 2 ^ 28 + a * 2 ^ 6 + b * 2 ^ 3 + c) := by
  obtain ⟨rfl, rfl, rfl, rfl⟩ := encodeRegisterOp_fields h
  exact eq_ofNat_registerFields (encodeRegisterOp_unassigned_field h)

/-- The word of an accepted ENC_IMM in closed form (R55). -/
theorem encodeImmediate_word {cfg : Config} {a v : Nat} {w : Word} (h : encodeImmediate cfg a v = .ok w) :
    w = BitVec.ofNat 32 (cfg.opcLoadval.toNat * 2 ^ 28 + a * 2 ^ 25 + v) := by
  obtain ⟨hop, rfl, rfl⟩ := encodeImmediate_fields h
  rw [← hop]
  exact eq_ofNat_immediateFields w

/-- ENC_IMM accepts every register and every literal of 25 bits (R55). -/
theorem encodeImmediate_exists (cfg : Config) {a v : Nat} (ha : a < 8) (hv : v < 2 ^ 25) :
    ∃ w, encodeImmediate cfg a v = .ok w := by
  obtain ⟨w₁, h₁⟩ := insertUnsigned_exists 0 (width := 4) (lsb := 28) (by decide) cfg.opcLoadval.isLt
  obtain ⟨w₂, h₂⟩ := insertUnsigned_exists w₁ (width := 3) (lsb := 25) (by decide) ha
  obtain ⟨w, h₃⟩ := insertUnsigned_exists w₂ (width := 25) (lsb := 0) (by decide) hv
  exact ⟨w, bind_ok_intro h₁ (bind_ok_intro h₂ h₃)⟩

/-- ENC_REG answers a word exactly when the word's fields are the operands, its unassigned bits are zero, and the code
is not that of the immediate shape (R57). -/
theorem encodeRegisterOp_eq_ok_iff {cfg : Config} {o a b c : Nat} {w : Word} :
    encodeRegisterOp cfg o a b c = .ok w ↔
      o ≠ cfg.opcLoadval.toNat ∧ fieldValue w 19 9 = 0 ∧
        fieldValue w 4 28 = o ∧ fieldValue w 3 6 = a ∧ fieldValue w 3 3 = b ∧ fieldValue w 3 0 = c := by
  refine ⟨fun h => ?fields, fun ⟨hl, hmid, ho, ha, hb, hc⟩ => ?word⟩
  case fields =>
    obtain ⟨hshape, -⟩ := encodeRegisterOp_inv h
    exact ⟨(Config_immShape_eq_false_iff cfg o).mp hshape, encodeRegisterOp_unassigned_field h,
      encodeRegisterOp_fields h⟩
  case word =>
    subst ho ha hb hc
    obtain ⟨w', hw'⟩ := encodeRegisterOp_exists (fieldValue_lt w 4 28) hl (fieldValue_lt w 3 6) (fieldValue_lt w 3 3)
      (fieldValue_lt w 3 0)
    rw [hw', encodeRegisterOp_word hw', ← eq_ofNat_registerFields hmid]

/-- ENC_IMM answers a word exactly when the word's fields are the immediate code and the operands (R57). -/
theorem encodeImmediate_eq_ok_iff {cfg : Config} {a v : Nat} {w : Word} :
    encodeImmediate cfg a v = .ok w ↔
      fieldValue w 4 28 = cfg.opcLoadval.toNat ∧ fieldValue w 3 25 = a ∧ fieldValue w 25 0 = v := by
  refine ⟨encodeImmediate_fields, fun ⟨hop, ha, hv⟩ => ?word⟩
  case word =>
    subst ha hv
    obtain ⟨w', hw'⟩ := encodeImmediate_exists cfg (fieldValue_lt w 3 25) (fieldValue_lt w 25 0)
    rw [hw', encodeImmediate_word hw', ← hop, ← eq_ofNat_immediateFields w]

/-! ### The field view of a word (R46) -/

theorem fieldView_of_opcode_eq {cfg : Config} {w : Word} (h : fieldValue w 4 28 = cfg.opcLoadval.toNat) :
    fieldView cfg w = .immediate (fieldValue w 4 28) (fieldValue w 3 25) (fieldValue w 25 0) := by
  simp [fieldView, Config.immShape, h]

theorem fieldView_of_opcode_ne {cfg : Config} {w : Word} (h : fieldValue w 4 28 ≠ cfg.opcLoadval.toNat) :
    fieldView cfg w =
      .threeRegister (fieldValue w 4 28) (fieldValue w 3 6) (fieldValue w 3 3) (fieldValue w 3 0) := by
  simp [fieldView, Config.immShape, h]

/-- The field view of an ENC_IMM word (R57 (a)). -/
theorem fieldView_encodeImmediate {cfg : Config} {a v : Nat} {w : Word} (h : encodeImmediate cfg a v = .ok w) :
    fieldView cfg w = .immediate cfg.opcLoadval.toNat a v := by
  obtain ⟨hop, ha, hv⟩ := encodeImmediate_fields h
  rw [fieldView_of_opcode_eq hop, hop, ha, hv]

/-! ### Decoding an encoded instruction -/

theorem encode_wellFormed {cfg : Config} {i : Instr} {w : Word} (h : encode cfg i = .ok w) : i.wellFormed = true := by
  cases i with
  | cmov a b c => exact EncodedIsWellFormed.cmov a b c cfg w h
  | add a b c => exact EncodedIsWellFormed.add a b c cfg w h
  | nand a b c => exact EncodedIsWellFormed.nand a b c cfg w h
  | loadval a imm => exact EncodedIsWellFormed.loadval a imm cfg w h

theorem registersFit_iff {a b c : Nat} :
    (registerFits a && registerFits b && registerFits c) = true ↔ a < 8 ∧ b < 8 ∧ c < 8 := by
  simp [registerFits, and_assoc]

/-- Under a valid configuration no code of a three-register instruction is refused: each well-formed one has a word. -/
theorem encode_exists {cfg : Config} (hv : cfg.valid = true) {i : Instr} (hw : i.wellFormed = true) :
    ∃ w, encode cfg i = .ok w := by
  obtain ⟨-, hnand, hadd, hcmov⟩ := Config_codes_ne hv
  cases i with
  | cmov a b c =>
    obtain ⟨ha, hb, hc⟩ := registersFit_iff.mp hw
    exact encodeRegisterOp_exists cfg.opcCmov.isLt hcmov ha hb hc
  | add a b c =>
    obtain ⟨ha, hb, hc⟩ := registersFit_iff.mp hw
    exact encodeRegisterOp_exists cfg.opcAdd.isLt hadd ha hb hc
  | nand a b c =>
    obtain ⟨ha, hb, hc⟩ := registersFit_iff.mp hw
    exact encodeRegisterOp_exists cfg.opcNand.isLt hnand ha hb hc
  | loadval a imm =>
    obtain ⟨ha, himm⟩ := Bool.and_eq_true_iff.mp hw
    exact encodeImmediate_exists cfg (of_decide_eq_true ha) (of_decide_eq_true himm)

/-- The decoder asks for NAND, then ADD, then CMOV, so each code must differ from those asked for before it. -/
theorem decodeWord_encode {cfg : Config} (hv : cfg.valid = true) {i : Instr} {w : Word} (h : encode cfg i = .ok w) :
    decodeWord cfg w = .ok i := by
  obtain ⟨⟨hadd_nand, hcmov_nand, hcmov_add⟩, -⟩ := Config_codes_ne hv
  cases i with
  | cmov a b c =>
    rw [decodeWord_threeRegister (fieldView_encodeRegisterOp h), if_neg hcmov_nand, if_neg hcmov_add, if_pos rfl]
  | add a b c => rw [decodeWord_threeRegister (fieldView_encodeRegisterOp h), if_neg hadd_nand, if_pos rfl]
  | nand a b c => rw [decodeWord_threeRegister (fieldView_encodeRegisterOp h), if_pos rfl]
  | loadval a imm => exact decodeWord_immediate (fieldView_encodeImmediate h)

/-- Settles O17: a well-formed instruction has a word, the decoder gives the instruction back from it, and the bytes of
a word decode as the word. -/
theorem decodeInvertsEncode : Obligations.DecodeInvertsEncode := by
  unfold Obligations.DecodeInvertsEncode
  intro cfg i hv hwf
  obtain ⟨w, hw⟩ := encode_exists hv hwf
  have hdecode : decodeWord cfg w = .ok i := decodeWord_encode hv hw
  refine ⟨w, hw, hdecode, fun rest => ?bytes⟩
  case bytes => rw [decodeBytes_wordBytes, hdecode]

/-! ### The words and faults of ENC_REG and ENC_IMM -/

theorem bind_eq_of_ok {α β : Type} {x : Except Fatal α} {a : α} (f : α → Except Fatal β) (h : x = .ok a) :
    (x >>= f) = f a := by
  rw [h]
  rfl

theorem bind_eq_of_error {α β : Type} {x : Except Fatal α} {e : Fatal} (f : α → Except Fatal β) (h : x = .error e) :
    (x >>= f) = .error e := by
  rw [h]
  rfl

/-- The first register too wide for its field is ENC_REG's fault, the code being one of the shape (R54, R80). -/
theorem encodeRegisterOp_register_fault {cfg : Config} {o a b c : Nat} (ho : o < 16)
    (hl : o ≠ cfg.opcLoadval.toNat) :
    (8 ≤ a → encodeRegisterOp cfg o a b c = .error (.immediateOutOfRange (.field 3 6 a))) ∧
    (a < 8 → 8 ≤ b → encodeRegisterOp cfg o a b c = .error (.immediateOutOfRange (.field 3 3 b))) ∧
    (a < 8 → b < 8 → 8 ≤ c → encodeRegisterOp cfg o a b c = .error (.immediateOutOfRange (.field 3 0 c))) := by
  have hshape : ¬ cfg.immShape o = true := Bool.eq_false_iff.mp ((Config_immShape_eq_false_iff cfg o).mpr hl)
  obtain ⟨w₁, h₁⟩ := insertUnsigned_exists 0 (width := 4) (lsb := 28) (by decide) ho
  rw [encodeRegisterOp, if_neg (Nat.not_le.mpr ho), if_neg hshape, bind_eq_of_ok _ h₁]
  refine ⟨fun ha => ?wideA, fun ha hb => ?wideB, fun ha hb hc => ?wideC⟩
  case wideA => exact bind_eq_of_error _ (insertUnsigned_range w₁ (by decide) ha)
  case wideB =>
    obtain ⟨w₂, h₂⟩ := insertUnsigned_exists w₁ (width := 3) (lsb := 6) (by decide) ha
    rw [bind_eq_of_ok _ h₂]
    exact bind_eq_of_error _ (insertUnsigned_range w₂ (by decide) hb)
  case wideC =>
    obtain ⟨w₂, h₂⟩ := insertUnsigned_exists w₁ (width := 3) (lsb := 6) (by decide) ha
    obtain ⟨w₃, h₃⟩ := insertUnsigned_exists w₂ (width := 3) (lsb := 3) (by decide) hb
    rw [bind_eq_of_ok _ h₂, bind_eq_of_ok _ h₃]
    exact insertUnsigned_range w₃ (by decide) hc

/-- The first operand too wide for its field is ENC_IMM's fault (R55, R80). -/
theorem encodeImmediate_fault (cfg : Config) {a v : Nat} :
    (8 ≤ a → encodeImmediate cfg a v = .error (.immediateOutOfRange (.field 3 25 a))) ∧
    (a < 8 → 2 ^ 25 ≤ v → encodeImmediate cfg a v = .error (.immediateOutOfRange (.field 25 0 v))) := by
  obtain ⟨w₁, h₁⟩ := insertUnsigned_exists 0 (width := 4) (lsb := 28) (by decide) cfg.opcLoadval.isLt
  rw [encodeImmediate, bind_eq_of_ok _ h₁]
  refine ⟨fun ha => ?wideRegister, fun ha hv => ?wideLiteral⟩
  case wideRegister => exact bind_eq_of_error _ (insertUnsigned_range w₁ (by decide) ha)
  case wideLiteral =>
    obtain ⟨w₂, h₂⟩ := insertUnsigned_exists w₁ (width := 3) (lsb := 25) (by decide) ha
    rw [bind_eq_of_ok _ h₂]
    exact insertUnsigned_range w₂ (by decide) hv

/-- Every answer of ENC_REG: its word in closed form, or the first fault that applies (R54, R80). -/
theorem encodeRegisterOp_eq (cfg : Config) (o a b c : Nat) :
    encodeRegisterOp cfg o a b c =
      if 16 ≤ o then .error (.immediateOutOfRange (.operand .op o))
      else if o = cfg.opcLoadval.toNat then .error (.opcodeShapeMismatch o)
      else if 8 ≤ a then .error (.immediateOutOfRange (.field 3 6 a))
      else if 8 ≤ b then .error (.immediateOutOfRange (.field 3 3 b))
      else if 8 ≤ c then .error (.immediateOutOfRange (.field 3 0 c))
      else .ok (BitVec.ofNat 32 (o * 2 ^ 28 + a * 2 ^ 6 + b * 2 ^ 3 + c)) := by
  by_cases ho : 16 ≤ o
  case pos => rw [encodeRegisterOp, if_pos ho, if_pos ho]
  by_cases hl : o = cfg.opcLoadval.toNat
  case pos =>
    have hshape : cfg.immShape o = true := beq_iff_eq.mpr hl
    rw [encodeRegisterOp, if_neg ho, if_neg ho, if_pos hshape, if_pos hl]
  rw [if_neg ho, if_neg hl]
  obtain ⟨hdest, hsrcA, hsrcB⟩ := encodeRegisterOp_register_fault (a := a) (b := b) (c := c) (Nat.lt_of_not_le ho) hl
  split
  case isTrue ha => exact hdest ha
  case isFalse ha =>
    split
    case isTrue hb => exact hsrcA (Nat.lt_of_not_le ha) hb
    case isFalse hb =>
      split
      case isTrue hc => exact hsrcB (Nat.lt_of_not_le ha) (Nat.lt_of_not_le hb) hc
      case isFalse hc =>
        obtain ⟨w, hw⟩ := encodeRegisterOp_exists (Nat.lt_of_not_le ho) hl (Nat.lt_of_not_le ha) (Nat.lt_of_not_le hb)
          (Nat.lt_of_not_le hc)
        rw [hw, encodeRegisterOp_word hw]

/-- Every answer of ENC_IMM: its word in closed form, or the first fault that applies (R55, R80). -/
theorem encodeImmediate_eq (cfg : Config) (a v : Nat) :
    encodeImmediate cfg a v =
      if 8 ≤ a then .error (.immediateOutOfRange (.field 3 25 a))
      else if 2 ^ 25 ≤ v then .error (.immediateOutOfRange (.field 25 0 v))
      else .ok (BitVec.ofNat 32 (cfg.opcLoadval.toNat * 2 ^ 28 + a * 2 ^ 25 + v)) := by
  obtain ⟨hdest, hliteral⟩ := encodeImmediate_fault cfg (a := a) (v := v)
  split
  case isTrue ha => exact hdest ha
  case isFalse ha =>
    split
    case isTrue hv => exact hliteral (Nat.lt_of_not_le ha) hv
    case isFalse hv =>
      obtain ⟨w, hw⟩ := encodeImmediate_exists cfg (Nat.lt_of_not_le ha) (Nat.lt_of_not_le hv)
      rw [hw, encodeImmediate_word hw]

/-- ENC_REG answers what the register encoder gives, its faults included (R54). -/
theorem serve_encReg (cfg : Config) (o a b c : Nat) :
    serve cfg (.encReg o a b c) = (encodeRegisterOp cfg o a b c).map Reply.word := by
  rw [serve]
  cases encodeRegisterOp cfg o a b c <;> rfl

/-- ENC_IMM answers what the immediate encoder gives, its faults included (R55). -/
theorem serve_encImm (cfg : Config) (a v : Nat) :
    serve cfg (.encImm a v) = (encodeImmediate cfg a v).map Reply.word := by
  rw [serve]
  cases encodeImmediate cfg a v <;> rfl

/-- Settles O8: the request passes the register encoder's answer on, branch by branch. -/
theorem encRegWordAndFaults : Obligations.EncRegWordAndFaults := by
  unfold Obligations.EncRegWordAndFaults
  intro cfg o a b c
  rw [serve_encReg, encodeRegisterOp_eq]
  simp only [apply_ite (Except.map Reply.word)]
  rfl

/-- Settles O9: the request passes the immediate encoder's answer on, branch by branch. -/
theorem encImmWordAndFaults : Obligations.EncImmWordAndFaults := by
  unfold Obligations.EncImmWordAndFaults
  intro cfg a v
  rw [serve_encImm, encodeImmediate_eq]
  simp only [apply_ite (Except.map Reply.word)]
  rfl

/-! ### The images of the encoders -/

/-- Settles O12: the fields of an encoded word are its operands, and its code selects the shape it was encoded in. -/
theorem fieldViewReadsBackEncodedWord : Obligations.FieldViewReadsBackEncodedWord := by
  unfold Obligations.FieldViewReadsBackEncodedWord
  exact ⟨fun _ _ _ _ _ _ => fieldView_encodeRegisterOp, fun _ _ _ _ => fieldView_encodeImmediate⟩

/-- Settles O13: one word has one field view, and it tells the operands and the encoder. -/
theorem encodersAreInjectiveAndDisjoint : Obligations.EncodersAreInjectiveAndDisjoint := by
  unfold Obligations.EncodersAreInjectiveAndDisjoint
  refine ⟨?register, ?immediate, ?disjoint⟩
  case register =>
    intro cfg o a b c o' a' b' c' w h h'
    have hview := (fieldView_encodeRegisterOp h).symm.trans (fieldView_encodeRegisterOp h')
    exact FieldView.threeRegister.inj hview
  case immediate =>
    intro cfg a v a' v' w h h'
    have hview := (fieldView_encodeImmediate h).symm.trans (fieldView_encodeImmediate h')
    obtain ⟨-, ha, hv⟩ := FieldView.immediate.inj hview
    exact ⟨ha, hv⟩
  case disjoint =>
    intro cfg o a b c a' v' w h h'
    have hview := (fieldView_encodeRegisterOp h).symm.trans (fieldView_encodeImmediate h')
    cases hview

/-- Settles O14: a word in the image is the encoding of its own fields. -/
theorem encoderImagesAreCharacterised : Obligations.EncoderImagesAreCharacterised := by
  unfold Obligations.EncoderImagesAreCharacterised
  intro cfg w
  have hmid : w.extractLsb' 9 19 = 0 ↔ fieldValue w 19 9 = 0 := fieldValue_eq_toNat_iff.symm
  rw [hmid, ne_eq, ← fieldValue_eq_toNat_iff]
  refine ⟨⟨?registerFields, fun ⟨hop, hzero⟩ => ?registerWord⟩, ?immediateField, fun hop => ?immediateWord⟩
  case registerFields =>
    rintro ⟨o, a, b, c, h⟩
    obtain ⟨hl, hzero, rfl, -⟩ := encodeRegisterOp_eq_ok_iff.mp h
    exact ⟨hl, hzero⟩
  case registerWord => exact ⟨_, _, _, _, encodeRegisterOp_eq_ok_iff.mpr ⟨hop, hzero, rfl, rfl, rfl, rfl⟩⟩
  case immediateField =>
    rintro ⟨a, v, h⟩
    obtain ⟨hop, -⟩ := encodeImmediate_eq_ok_iff.mp h
    exact hop
  case immediateWord => exact ⟨_, _, encodeImmediate_eq_ok_iff.mpr ⟨hop, rfl, rfl⟩⟩

/-! ### Encoding a decoded word -/

/-- An instruction decoded from a three-register view is encoded by ENC_REG of that view. -/
theorem encode_of_decodeWord_threeRegister {cfg : Config} {w : Word} {o a b c : Nat} {i : Instr}
    (hview : fieldView cfg w = .threeRegister o a b c) (h : decodeWord cfg w = .ok i) :
    encode cfg i = encodeRegisterOp cfg o a b c := by
  rw [decodeWord_threeRegister hview] at h
  split at h
  case isTrue hnand => cases h; rw [hnand]; rfl
  case isFalse =>
    split at h
    case isTrue hadd => cases h; rw [hadd]; rfl
    case isFalse =>
      split at h
      case isTrue hcmov => cases h; rw [hcmov]; rfl
      case isFalse => cases h

/-- ENC_REG of a word's fields is the word with its unassigned bits zeroed: the mask keeps the four fields (R39). -/
theorem encodeRegisterOp_fieldValues {cfg : Config} {w : Word} (h : fieldValue w 4 28 ≠ cfg.opcLoadval.toNat) :
    encodeRegisterOp cfg (fieldValue w 4 28) (fieldValue w 3 6) (fieldValue w 3 3) (fieldValue w 3 0) =
      .ok (w &&& (0xF00001FF : Word)) := by
  have hzero : fieldValue (w &&& (0xF00001FF : Word)) 19 9 = 0 := by
    have hmask : fieldValue 0xF00001FF 19 9 = 0 := by decide
    rw [fieldValue_and, hmask, Nat.and_zero]
  exact encodeRegisterOp_eq_ok_iff.mpr ⟨h, hzero, fieldValue_and_of_eq_mask (by decide),
    fieldValue_and_of_eq_mask (by decide), fieldValue_and_of_eq_mask (by decide),
    fieldValue_and_of_eq_mask (by decide)⟩

/-- The word a decoded instruction encodes to: the word decoded, without the bits its shape does not assign. -/
theorem encode_of_decodeWord {cfg : Config} {w : Word} {i : Instr} (h : decodeWord cfg w = .ok i) :
    encode cfg i = .ok (if w.extractLsb' 28 4 = cfg.opcLoadval then w else w &&& (0xF00001FF : Word)) := by
  simp only [← fieldValue_eq_toNat_iff]
  split
  case isTrue hop =>
    rw [decodeWord_immediate (fieldView_of_opcode_eq hop), Except.ok.injEq] at h
    subst h
    exact encodeImmediate_eq_ok_iff.mpr ⟨hop, rfl, rfl⟩
  case isFalse hop =>
    rw [encode_of_decodeWord_threeRegister (fieldView_of_opcode_ne hop) h, encodeRegisterOp_fieldValues hop]

/-- Settles O18: the decoded instruction has a word, so it is well formed. -/
theorem encodeInvertsDecode : Obligations.EncodeInvertsDecode := by
  unfold Obligations.EncodeInvertsDecode
  intro cfg w i _ h
  have hencode := encode_of_decodeWord h
  exact ⟨encode_wellFormed hencode, hencode⟩

/-! ### Complement -/

theorem State.RunsNext.getElem? {s : State} {w : Word} {ws : List Word} (h : s.RunsNext (w :: ws)) :
    s.words[s.pos]? = some w := by
  obtain ⟨-, rest, hrest⟩ := h
  have hhead : (s.words.drop s.pos)[0]? = some w := by rw [← hrest]; rfl
  rwa [List.getElem?_drop, Nat.add_zero] at hhead

/-- With no request left and a word at the position that decodes, the step is the instruction's meaning (R67, R68). -/
theorem stepWith_eq_exec {cfg : Config} {s : State} {w : Word} {i : Instr} (hv : cfg.valid = true)
    (hp : s.pending = []) (hw : s.words[s.pos]? = some w) (hi : decodeWord cfg w = .ok i) :
    stepWith cfg s = exec i s := by
  simp only [stepWith_runWord hv hp, runWord, fetchWord, hw, hi]

/-- A three-register instruction on registers that exist completes. -/
theorem threeRegister_of_lt (f : Word → Word → Word → Word) {a b c : Nat} (s : State) (ha : a < 8) (hb : b < 8)
    (hc : c < 8) :
    threeRegister f a b c s = .next (s.writeReg a (f (s.readReg a) (s.readReg b) (s.readReg c))).advance := by
  rw [threeRegister, if_pos (registersFit_iff.mpr ⟨ha, hb, hc⟩)]

theorem nandWord_self (x : Word) : nandWord x x = ~~~x := by
  rw [nandWord, BitVec.and_self]

/-- NAND of a register with itself inverts it (R56, R70). -/
theorem exec_nand_self {dst src : Nat} (s : State) (hdst : dst < 8) (hsrc : src < 8) :
    exec (.nand dst src src) s = .next (s.writeReg dst (~~~ s.readReg src)).advance := by
  rw [← nandWord_self]
  exact threeRegister_of_lt (fun _ x y => nandWord x y) s hdst hsrc hsrc

/-- Settles O29: the one word is that of `NAND(dst, src, src)`, which decodes back to it and runs as the complement. -/
theorem complementInvertsRegister : Obligations.ComplementInvertsRegister := by
  unfold Obligations.ComplementInvertsRegister
  intro cfg dst src hv hdst hsrc
  have hwf : (Instr.nand dst src src).wellFormed = true := registersFit_iff.mpr ⟨hdst, hsrc, hsrc⟩
  obtain ⟨w, hw⟩ := encode_exists hv hwf
  refine ⟨w, bind_ok_intro hw rfl, hw, fun s hs => ?step⟩
  case step =>
    have hword : s.words[s.pos]? = some w := hs.getElem?
    obtain ⟨hp, -⟩ := hs
    rw [stepWith_eq_exec hv hp hword (decodeWord_encode hv hw), exec_nand_self s hdst hsrc]

end Sys2Proof.Machine
end

section
/-! The literal decomposer (42_literal_decomposer.md): the path a value takes, the words each path answers and the
errors before them, and what running an expansion leaves in the registers. -/

namespace Sys2Proof.Machine

open Sys2Proof.Laws

/-! ### The path of a value and its two parts (R60, R64) -/

/-- All the path of a value can be, with the interval it stands for. -/
theorem literalPath_cases (v : Word) :
    (literalPath v = .direct ∧ v.toNat < 2 ^ 25) ∨
    (literalPath v = .complemented ∧ 2 ^ 25 ≤ v.toNat ∧ (~~~v).toNat < 2 ^ 25) ∨
    (literalPath v = .wide ∧ 2 ^ 25 ≤ v.toNat ∧ 2 ^ 25 ≤ (~~~v).toNat) := by
  rw [literalPath]
  split
  case isTrue hv => exact .inl ⟨rfl, hv⟩
  case isFalse hv =>
    split
    case isTrue hc => exact .inr (.inl ⟨rfl, Nat.le_of_not_lt hv, hc⟩)
    case isFalse hc => exact .inr (.inr ⟨rfl, Nat.le_of_not_lt hv, Nat.le_of_not_lt hc⟩)

theorem literalPath_eq_direct {v : Word} (h : v.toNat < 2 ^ 25) : literalPath v = .direct :=
  if_pos h

theorem literalPath_eq_complemented {v : Word} (h : 2 ^ 25 ≤ v.toNat) (hc : (~~~v).toNat < 2 ^ 25) :
    literalPath v = .complemented := by
  rw [literalPath, if_neg (Nat.not_lt.mpr h), if_pos hc]

theorem literalPath_eq_wide {v : Word} (h : 2 ^ 25 ≤ v.toNat) (hc : 2 ^ 25 ≤ (~~~v).toNat) :
    literalPath v = .wide := by
  rw [literalPath, if_neg (Nat.not_lt.mpr h), if_neg (Nat.not_lt.mpr hc)]

theorem high7_eq_div (v : Word) : high7 v = v.toNat / 2 ^ 25 := by
  have hlt : v.toNat < 2 ^ 32 := v.isLt
  rw [high7, fieldValue_eq_div_mod]
  omega

theorem low25_eq_mod (v : Word) : low25 v = v.toNat % 2 ^ 25 := by
  rw [low25, fieldValue_eq_div_mod, Nat.pow_zero, Nat.div_one]

/-- A value is its high part in place and its low part: adding the two back cannot wrap (R66 (e)). -/
theorem high7_mul_add_low25 (v : Word) : high7 v * 2 ^ 25 + low25 v = v.toNat := by
  rw [high7_eq_div, low25_eq_mod, Nat.div_add_mod']

/-- The high part in place is the value with its low 25 bits cleared (R66 (b)). -/
theorem ofNat_high7_mul (v : Word) : BitVec.ofNat 32 (high7 v * 2 ^ 25) = v &&& (0xFE000000 : Word) := by
  have hhigh : high7 (v &&& (0xFE000000 : Word)) = high7 v := fieldValue_and_of_eq_mask (by decide)
  have hlow : low25 (v &&& (0xFE000000 : Word)) = 0 := by
    have hmask : fieldValue 0xFE000000 25 0 = 0 := by decide
    rw [low25, fieldValue_and, hmask, Nat.and_zero]
  have hsum := high7_mul_add_low25 (v &&& (0xFE000000 : Word))
  rw [hhigh, hlow, Nat.add_zero] at hsum
  rw [hsum, BitVec.ofNat_toNat, BitVec.setWidth_eq]

/-- No doubling of the high part leaves the word (R66 (e)). -/
theorem high7_mul_two_pow_lt (v : Word) {k : Nat} (hk : k ≤ 25) : high7 v * 2 ^ k < 2 ^ 32 :=
  calc high7 v * 2 ^ k
    _ ≤ high7 v * 2 ^ 25 := Nat.mul_le_mul_left _ (Nat.pow_le_pow_right (by decide) hk)
    _ ≤ v.toNat := by rw [← high7_mul_add_low25 v]; exact Nat.le_add_right ..
    _ < 2 ^ 32 := v.isLt

/-- Settles O22: the complement of `v` is `2^32 - 1 - v`, and the top seven bits are the quotient by `2^25`. -/
theorem pathIsChosenByInterval : Obligations.PathIsChosenByInterval := by
  unfold Obligations.PathIsChosenByInterval
  intro v
  have hlt : v.toNat < 2 ^ 32 := v.isLt
  have hzero : v.extractLsb' 25 7 = 0 ↔ v.toNat / 2 ^ 25 = 0 := by
    rw [← high7_eq_div]
    exact fieldValue_eq_toNat_iff.symm
  have hones : v.extractLsb' 25 7 = BitVec.allOnes 7 ↔ v.toNat / 2 ^ 25 = 127 := by
    rw [← high7_eq_div]
    exact fieldValue_eq_toNat_iff.symm
  rw [hzero, hones, high7_eq_div]
  have hpath := literalPath_cases v
  rw [BitVec.toNat_not] at hpath
  obtain ⟨hp, hint⟩ | ⟨hp, hint⟩ | ⟨hp, hint⟩ := hpath
  case inl => simp only [hp, reduceCtorEq, true_iff, false_iff, false_implies, and_true]; omega
  case inr.inl => simp only [hp, reduceCtorEq, true_iff, false_iff, false_implies, and_true]; omega
  case inr.inr => simp only [hp, reduceCtorEq, true_iff, false_iff, true_implies]; omega

/-! ### The operand checks (R59) -/

theorem checkLiteralOperands_dst {dst : Nat} (scratch : Option Nat) (h : 8 ≤ dst) :
    checkLiteralOperands dst scratch = .error (.immediateOutOfRange (.operand .dst dst)) :=
  if_pos h

theorem checkLiteralOperands_scratch {dst s : Nat} (hdst : dst < 8) (h : 8 ≤ s) :
    checkLiteralOperands dst (some s) = .error (.immediateOutOfRange (.operand .scratch s)) := by
  exact (if_neg (Nat.not_le.mpr hdst)).trans (if_pos h)

theorem checkLiteralOperands_ok {dst : Nat} {scratch : Option Nat} (hdst : dst < 8) (hs : ∀ s ∈ scratch, s < 8) :
    checkLiteralOperands dst scratch = .ok () := by
  cases scratch with
  | none => exact if_neg (Nat.not_le.mpr hdst)
  | some s => exact (if_neg (Nat.not_le.mpr hdst)).trans (if_neg (Nat.not_le.mpr (hs s rfl)))

/-! ### LOAD_LITERAL's answer on each path -/

section Answers

variable {cfg : Config} {dst : Nat} {v : Word} {scratch : Option Nat}

/-- A failed operand check is the request's fault, before any path (R59). -/
theorem serve_loadLiteral_of_check_error {f : Fatal} (h : checkLiteralOperands dst scratch = .error f) :
    serve cfg (.loadLiteral dst v scratch) = .error f :=
  bind_eq_of_error _ (bind_eq_of_error _ h)

theorem serve_loadLiteral_direct {ws : List Word} (hcheck : checkLiteralOperands dst scratch = .ok ())
    (hpath : literalPath v = .direct) (hws : directExpansion cfg dst v = .ok ws) :
    serve cfg (.loadLiteral dst v scratch) = .ok (.expansion ws) := by
  refine bind_ok_intro (a := .ok ws) (bind_ok_intro hcheck ?_) rfl
  rw [hpath]
  exact bind_ok_intro hws rfl

theorem serve_loadLiteral_complemented {ws : List Word} (hcheck : checkLiteralOperands dst scratch = .ok ())
    (hpath : literalPath v = .complemented) (hws : complementExpansion cfg dst v = .ok ws) :
    serve cfg (.loadLiteral dst v scratch) = .ok (.expansion ws) := by
  refine bind_ok_intro (a := .ok ws) (bind_ok_intro hcheck ?_) rfl
  rw [hpath]
  exact bind_ok_intro hws rfl

theorem serve_loadLiteral_wide {s : Nat} {ws : List Word} (hcheck : checkLiteralOperands dst (some s) = .ok ())
    (hpath : literalPath v = .wide) (hne : s ≠ dst) (hws : wideExpansion cfg dst v s = .ok ws) :
    serve cfg (.loadLiteral dst v (some s)) = .ok (.expansion ws) := by
  refine bind_ok_intro (a := .ok ws) (bind_ok_intro hcheck ?_) rfl
  rw [hpath]
  exact (if_neg hne).trans (bind_ok_intro hws rfl)

/-- Path 3 without a scratch register (R63, R81 (3)). -/
theorem serve_loadLiteral_missing (hdst : dst < 8) (hpath : literalPath v = .wide) :
    serve cfg (.loadLiteral dst v none) = .ok (.error .missingScratchRegister) := by
  have hcheck : checkLiteralOperands dst none = .ok () := checkLiteralOperands_ok hdst nofun
  refine bind_ok_intro (a := .error .missingScratchRegister) (bind_ok_intro hcheck ?_) rfl
  rw [hpath]
  rfl

/-- Path 3 with the destination as scratch register (R63, R81 (4)). -/
theorem serve_loadLiteral_aliased (hdst : dst < 8) (hpath : literalPath v = .wide) :
    serve cfg (.loadLiteral dst v (some dst)) = .ok (.error .scratchAliasesDestination) := by
  have hcheck : checkLiteralOperands dst (some dst) = .ok () :=
    checkLiteralOperands_ok hdst fun _ hs => Option.some.inj hs ▸ hdst
  refine bind_ok_intro (a := .error .scratchAliasesDestination) (bind_ok_intro hcheck ?_) rfl
  rw [hpath]
  exact if_pos rfl

end Answers

/-! ### The words of each path -/

/-- Settles O23: a value of path 1 is an operand ENC_IMM accepts. -/
theorem narrowLiteralIsOneLoad : Obligations.NarrowLiteralIsOneLoad := by
  unfold Obligations.NarrowLiteralIsOneLoad
  intro cfg dst v scratch hdst hs hlt
  obtain ⟨w, hw⟩ := encodeImmediate_exists cfg hdst hlt
  exact ⟨w, hw, serve_loadLiteral_direct (checkLiteralOperands_ok hdst hs) (literalPath_eq_direct hlt)
    (bind_ok_intro hw rfl)⟩

/-- Settles O24: the complement is an operand ENC_IMM accepts, and the NAND code of a valid configuration is one
ENC_REG accepts. -/
theorem complementLiteralIsLoadThenNand : Obligations.ComplementLiteralIsLoadThenNand := by
  unfold Obligations.ComplementLiteralIsLoadThenNand
  intro cfg dst v scratch hv hdst hs hge hc
  obtain ⟨w₀, hload⟩ := encodeImmediate_exists cfg hdst hc
  obtain ⟨w₁, hnand⟩ := encode_exists hv (i := .nand dst dst dst) (registersFit_iff.mpr ⟨hdst, hdst, hdst⟩)
  have hcomplement : complement cfg dst dst = .ok [w₁] := bind_ok_intro hnand rfl
  exact ⟨w₀, w₁, hload, hnand, serve_loadLiteral_complemented (checkLiteralOperands_ok hdst hs)
    (literalPath_eq_complemented hge hc) (bind_ok_intro hload (bind_ok_intro hcomplement rfl))⟩

/-- The words of path 3 by their index (R64). -/
theorem wideWords_getElem? (loadHigh double loadLow combine : Word) (k : Nat) :
    ([loadHigh] ++ List.replicate 25 double ++ [loadLow] ++ [combine])[k]? =
      if k = 0 then some loadHigh else if k ≤ 25 then some double
        else if k = 26 then some loadLow else if k = 27 then some combine else none := by
  by_cases hk : k < 28
  case pos => interval_cases k <;> rfl
  case neg => rw [List.getElem?_eq_none (Nat.le_of_not_lt hk), if_neg, if_neg, if_neg, if_neg] <;> omega

/-- Settles O25: both parts of the value are operands ENC_IMM accepts, and the words stand in the order the expansion
lists them. -/
theorem wideLiteralIsTwentyEightWords : Obligations.WideLiteralIsTwentyEightWords := by
  unfold Obligations.WideLiteralIsTwentyEightWords
  intro cfg dst s v hv hdst hs hne hge hc
  rw [← high7_eq_div, ← low25_eq_mod]
  have hhigh : high7 v < 2 ^ 25 := (fieldValue_lt v 7 25).trans (by decide)
  obtain ⟨loadHigh, hloadHigh⟩ := encodeImmediate_exists cfg hs hhigh
  obtain ⟨double, hdouble⟩ := encode_exists hv (i := .add s s s) (registersFit_iff.mpr ⟨hs, hs, hs⟩)
  obtain ⟨loadLow, hloadLow⟩ := encodeImmediate_exists cfg hdst (fieldValue_lt v 25 0)
  obtain ⟨combine, hcombine⟩ := encode_exists hv (i := .add dst dst s) (registersFit_iff.mpr ⟨hdst, hdst, hs⟩)
  have hcheck : checkLiteralOperands dst (some s) = .ok () :=
    checkLiteralOperands_ok hdst fun _ hmem => Option.some.inj hmem ▸ hs
  have hws : wideExpansion cfg dst v s = .ok ([loadHigh] ++ List.replicate 25 double ++ [loadLow] ++ [combine]) :=
    bind_ok_intro hloadHigh (bind_ok_intro hdouble (bind_ok_intro hloadLow (bind_ok_intro hcombine rfl)))
  exact ⟨loadHigh, double, loadLow, combine, hloadHigh, hdouble, hloadLow, hcombine, _,
    serve_loadLiteral_wide hcheck (literalPath_eq_wide hge hc) hne hws, rfl,
    wideWords_getElem? loadHigh double loadLow combine⟩

/-- Settles O26: the checks come first, then path 3's two errors, and with neither each path has its words. -/
theorem literalErrorsFollowPriority : Obligations.LiteralErrorsFollowPriority := by
  unfold Obligations.LiteralErrorsFollowPriority
  intro cfg dst v scratch hv wide
  refine ⟨?dst, ?scratch, ?missing, ?aliased, ?success⟩
  case dst => exact fun hdst => serve_loadLiteral_of_check_error (checkLiteralOperands_dst scratch hdst)
  case scratch =>
    rintro s hdst rfl hs
    exact serve_loadLiteral_of_check_error (checkLiteralOperands_scratch hdst hs)
  case missing =>
    rintro hdst rfl ⟨hge, hc⟩
    exact serve_loadLiteral_missing hdst (literalPath_eq_wide hge hc)
  case aliased =>
    rintro hdst rfl ⟨hge, hc⟩
    exact serve_loadLiteral_aliased hdst (literalPath_eq_wide hge hc)
  case success =>
    intro hdst hs hscratch
    obtain ⟨-, hlt⟩ | ⟨-, hge, hc⟩ | ⟨-, hge, hc⟩ := literalPath_cases v
    case inl =>
      obtain ⟨w, -, hserve⟩ := narrowLiteralIsOneLoad cfg dst v scratch hdst hs hlt
      exact ⟨_, hserve⟩
    case inr.inl =>
      obtain ⟨w₀, w₁, -, -, hserve⟩ := complementLiteralIsLoadThenNand cfg dst v scratch hv hdst hs hge hc
      exact ⟨_, hserve⟩
    case inr.inr =>
      obtain ⟨s, rfl, hne⟩ := hscratch ⟨hge, hc⟩
      obtain ⟨_, _, _, _, -, -, -, -, ws, hserve, -⟩ :=
        wideLiteralIsTwentyEightWords cfg dst s v hv hdst (hs s rfl) hne hge hc
      exact ⟨ws, hserve⟩

/-! ### A user-facing error in a session -/

/-- Settles O46: the step is the delivery of the error, which has no word and one report. -/
theorem userErrorIsReportedAndEmitsNothing : Obligations.UserErrorIsReportedAndEmitsNothing := by
  unfold Obligations.UserErrorIsReportedAndEmitsNothing
  intro cfg s r rest e hv hp hr
  have hwords : (s.deliver (.error e)).words = s.words := by
    rw [State.deliver_words, Reply.emitted_error, List.append_nil]
  exact ⟨_, _, stepWith_serve_ok hv hp hr, hwords, s.deliver_regs (.error e), s.deliver_pos (.error e), rfl,
    s.deliver_replies (.error e), s.report_reports e, rfl, rfl⟩

/-! ### Runs of words -/

theorem runWith_succ_inv {cfg : Config} {n : Nat} {s t : State} (h : runWith cfg (n + 1) s = .next t) :
    ∃ u, stepWith cfg s = .next u ∧ runWith cfg n u = .next t := by
  rw [runWith_succ] at h
  cases hstep : stepWith cfg s with
  | next u => rw [hstep] at h; exact ⟨u, rfl, h⟩
  | fault f => rw [hstep] at h; cases h
  | refused q => rw [hstep] at h; cases h

theorem runWith_one {cfg : Config} {s t : State} (h : stepWith cfg s = .next t) : runWith cfg 1 s = .next t :=
  (runWith_succ_next 0 h).trans (runWith_zero cfg t)

theorem runWith_trans {cfg : Config} {m n : Nat} {s t u : State} (hst : runWith cfg m s = .next t)
    (htu : runWith cfg n t = .next u) : runWith cfg (m + n) s = .next u := by
  rw [runWith_add, hst]
  exact htu

/-- With no request open, a step changes the registers and goes on by one word. -/
theorem stepWith_frame {cfg : Config} {s t : State} (hp : s.pending = []) (h : stepWith cfg s = .next t) :
    t = { s with regs := t.regs, pos := s.pos + 1 } := by
  obtain ⟨-, ⟨r, rest, -, hopen, -, -⟩ | ⟨w, i, -, -, -, hexec⟩⟩ := stepWith_next h
  case inl => rw [hp] at hopen; cases hopen
  case inr =>
    obtain ⟨-, x, rfl⟩ := exec_next hexec
    rfl

/-- With no request open, a run changes the registers and goes on by a word per step. -/
theorem runWith_frame {cfg : Config} {n : Nat} {s t : State} (hp : s.pending = [])
    (h : runWith cfg n s = .next t) : t = { s with regs := t.regs, pos := s.pos + n } := by
  induction n generalizing s with
  | zero => cases h; rfl
  | succ n ih =>
    obtain ⟨u, hstep, hrun⟩ := runWith_succ_inv h
    have hu := stepWith_frame hp hstep
    have ht := ih (by rw [hu]; exact hp) hrun
    rw [ht, hu, Nat.add_right_comm, Nat.add_assoc]

theorem State.RunsNext.of_append {s : State} {ws ws' : List Word} (h : s.RunsNext (ws ++ ws')) : s.RunsNext ws := by
  obtain ⟨hp, hws⟩ := h
  exact ⟨hp, (List.prefix_append ws ws').trans hws⟩

/-- After the run of its first words, a session is about to run the rest. -/
theorem State.RunsNext.after {cfg : Config} {s t : State} {ws ws' : List Word} (h : s.RunsNext (ws ++ ws'))
    (hrun : runWith cfg ws.length s = .next t) : t.RunsNext ws' := by
  obtain ⟨hp, rest, hrest⟩ := h
  rw [runWith_frame hp hrun]
  refine ⟨hp, rest, ?_⟩
  rw [← List.drop_drop, ← hrest, List.append_assoc, List.drop_left]

/-! ### Steps of the words an expansion is made of -/

/-- `t` has `x` in register `r` and the registers of `s` in every other one. -/
structure State.Writes (s t : State) (r : Nat) (x : Word) : Prop where
  value : t.readReg r = x
  others : ∀ r', r' ≠ r → t.readReg r' = s.readReg r'

theorem State.Writes.of_writeReg (s : State) {r : Nat} (x : Word) (hr : r < 8) :
    s.Writes (s.writeReg r x).advance r x where
  value := s.readReg_writeReg_same x hr
  others _ hne := s.readReg_writeReg_of_ne x hne

theorem State.Writes.trans {s t u : State} {r : Nat} {x y : Word} (hst : s.Writes t r x) (htu : t.Writes u r y) :
    s.Writes u r y where
  value := htu.value
  others r' hne := (htu.others r' hne).trans (hst.others r' hne)

theorem zeroExtendImmediate_eq {imm : Nat} (h : imm < 2 ^ 25) : zeroExtendImmediate imm = BitVec.ofNat 32 imm := by
  refine BitVec.eq_of_toNat_eq ?_
  rw [zeroExtendImmediate, BitVec.toNat_setWidth, BitVec.toNat_ofNat, BitVec.toNat_ofNat, Nat.mod_eq_of_lt h]

/-- The word of an encoded instruction runs as the instruction. -/
theorem stepWith_encode {cfg : Config} {s : State} {i : Instr} {w : Word} {ws : List Word} (hv : cfg.valid = true)
    (hi : encode cfg i = .ok w) (hs : s.RunsNext (w :: ws)) : stepWith cfg s = exec i s := by
  have hword : s.words[s.pos]? = some w := hs.getElem?
  obtain ⟨hp, -⟩ := hs
  exact stepWith_eq_exec hv hp hword (decodeWord_encode hv hi)

section Steps

variable {cfg : Config} {s : State} {w : Word} {ws : List Word} (hv : cfg.valid = true) (hs : s.RunsNext (w :: ws))

include hv hs

/-- An ENC_IMM word loads its literal (R69). -/
theorem run_immediateLoad {a imm : Nat} (hw : encodeImmediate cfg a imm = .ok w) :
    ∃ t, runWith cfg 1 s = .next t ∧ s.Writes t a (BitVec.ofNat 32 imm) := by
  obtain ⟨ha, himm⟩ := encodeImmediate_operands_lt hw
  have hexec : exec (.loadval a imm) s = .next (s.writeReg a (BitVec.ofNat 32 imm)).advance := by
    rw [← zeroExtendImmediate_eq himm]
    exact if_pos (Bool.and_eq_true_iff.mpr ⟨decide_eq_true ha, decide_eq_true himm⟩)
  exact ⟨_, runWith_one ((stepWith_encode (i := .loadval a imm) hv hw hs).trans hexec), .of_writeReg s _ ha⟩

/-- The word of `ADD(a, b, c)` leaves the sum (R71). -/
theorem run_add {a b c : Nat} (hw : encodeRegisterOp cfg cfg.opcAdd.toNat a b c = .ok w) :
    ∃ t, runWith cfg 1 s = .next t ∧ s.Writes t a (s.readReg b + s.readReg c) := by
  obtain ⟨ha, hb, hc⟩ := encodeRegisterOp_registers_lt hw
  have hexec : exec (.add a b c) s = .next (s.writeReg a (s.readReg b + s.readReg c)).advance :=
    threeRegister_of_lt (fun _ x y => addWord x y) s ha hb hc
  exact ⟨_, runWith_one ((stepWith_encode (i := .add a b c) hv hw hs).trans hexec), .of_writeReg s _ ha⟩

/-- The word of `NAND(a, b, b)` leaves the complement (R56). -/
theorem run_complement {a b : Nat} (hw : encodeRegisterOp cfg cfg.opcNand.toNat a b b = .ok w) :
    ∃ t, runWith cfg 1 s = .next t ∧ s.Writes t a (~~~ s.readReg b) := by
  obtain ⟨ha, hb, -⟩ := encodeRegisterOp_registers_lt hw
  exact ⟨_, runWith_one ((stepWith_encode (i := .nand a b b) hv hw hs).trans (exec_nand_self s ha hb)),
    .of_writeReg s _ ha⟩

end Steps

/-- `k` words of `ADD(r, r, r)` multiply the number in `r` by `2^k`. -/
theorem run_doublings {cfg : Config} {r n k : Nat} {double : Word} {s : State} (hv : cfg.valid = true)
    (hw : encodeRegisterOp cfg cfg.opcAdd.toNat r r r = .ok double) (hs : s.RunsNext (List.replicate k double))
    (hn : s.readReg r = BitVec.ofNat 32 n) :
    ∃ t, runWith cfg k s = .next t ∧ s.Writes t r (BitVec.ofNat 32 (n * 2 ^ k)) := by
  induction k generalizing s n with
  | zero => exact ⟨s, runWith_zero cfg s, by rw [hn, Nat.pow_zero, Nat.mul_one], fun _ _ => rfl⟩
  | succ k ih =>
    obtain ⟨u, hstep, hu⟩ := run_add hv hs hw
    have hrest : u.RunsNext (List.replicate k double) := hs.after (ws := [double]) hstep
    have hdoubled : u.readReg r = BitVec.ofNat 32 (n * 2) := by
      rw [hu.value, hn, ← BitVec.ofNat_add, Nat.mul_two]
    obtain ⟨t, hrun, ht⟩ := ih hrest hdoubled
    rw [Nat.mul_assoc, ← Nat.pow_succ'] at ht
    exact ⟨t, Nat.add_comm 1 k ▸ runWith_trans hstep hrun, hu.trans ht⟩

/-! ### Runs of an expansion -/

section Expansions

variable {cfg : Config} {dst : Nat} {v : Word} {ws : List Word} {s : State} (hv : cfg.valid = true)

include hv

/-- Path 1 leaves the value in `dst` and touches no other register. -/
theorem run_directExpansion (h : directExpansion cfg dst v = .ok ws) (hs : s.RunsNext ws) :
    ∃ t, runWith cfg ws.length s = .next t ∧ s.Writes t dst v := by
  obtain ⟨w, hload, rfl⟩ := directExpansion_inv h
  obtain ⟨t, hrun, ht⟩ := run_immediateLoad hv hs hload
  rw [BitVec.ofNat_toNat, BitVec.setWidth_eq] at ht
  exact ⟨t, hrun, ht⟩

/-- Path 2 loads the complement and inverts it. -/
theorem run_complementExpansion (h : complementExpansion cfg dst v = .ok ws) (hs : s.RunsNext ws) :
    ∃ t, runWith cfg ws.length s = .next t ∧ s.Writes t dst v := by
  obtain ⟨w₀, w₁, hload, hnand, rfl⟩ := complementExpansion_inv h
  obtain ⟨u, hfirst, hu⟩ := run_immediateLoad hv hs hload
  obtain ⟨t, hsecond, ht⟩ := run_complement hv (hs.after (ws := [w₀]) hfirst) hnand
  rw [hu.value, BitVec.ofNat_toNat, BitVec.setWidth_eq, BitVec.not_not] at ht
  exact ⟨t, runWith_trans hfirst hsecond, hu.trans ht⟩

variable {sc : Nat}

/-- Path 3 after `k` doublings: the scratch register holds `high7 * 2^k`, and no other register has changed. -/
theorem run_wideExpansion_doublings (h : wideExpansion cfg dst v sc = .ok ws) (hs : s.RunsNext ws) {k : Nat}
    (hk : k ≤ 25) :
    ∃ t, runWith cfg (1 + k) s = .next t ∧ s.Writes t sc (BitVec.ofNat 32 (high7 v * 2 ^ k)) := by
  obtain ⟨loadHigh, double, loadLow, combine, hhigh, hdouble, -, -, rfl⟩ := wideExpansion_inv h
  obtain ⟨u, hload, hu⟩ := run_immediateLoad hv hs hhigh
  have hdoublings : u.RunsNext (List.replicate k double) := by
    have hrest : u.RunsNext (List.replicate 25 double ++ ([loadLow] ++ [combine])) := hs.after (ws := [loadHigh]) hload
    rw [← Nat.add_sub_cancel' hk, List.replicate_add] at hrest
    exact hrest.of_append.of_append
  obtain ⟨t, hrun, ht⟩ := run_doublings hv hdouble hdoublings hu.value
  exact ⟨t, runWith_trans hload hrun, hu.trans ht⟩

/-- Path 3 before its last word: the high part in the scratch register, the low part in `dst`. -/
theorem run_wideExpansion_parts (h : wideExpansion cfg dst v sc = .ok ws) (hs : s.RunsNext ws) :
    ∃ t u, runWith cfg 27 s = .next u ∧ s.Writes t sc (BitVec.ofNat 32 (high7 v * 2 ^ 25)) ∧
      t.Writes u dst (BitVec.ofNat 32 (low25 v)) := by
  obtain ⟨t, hrun, ht⟩ := run_wideExpansion_doublings hv h hs (Nat.le_refl 25)
  obtain ⟨loadHigh, double, loadLow, combine, -, -, hlow, -, rfl⟩ := wideExpansion_inv h
  rw [List.append_assoc] at hs
  have hrest : t.RunsNext ([loadLow] ++ [combine]) := hs.after (cfg := cfg) hrun
  obtain ⟨u, hload, hu⟩ := run_immediateLoad hv hrest hlow
  exact ⟨t, u, runWith_trans hrun hload, ht, hu⟩

/-- Path 3 leaves the value in `dst` and its high part in the scratch register. -/
theorem run_wideExpansion (h : wideExpansion cfg dst v sc = .ok ws) (hne : sc ≠ dst) (hs : s.RunsNext ws) :
    ∃ t u, runWith cfg ws.length s = .next u ∧ s.Writes t sc (v &&& (0xFE000000 : Word)) ∧ t.Writes u dst v := by
  obtain ⟨t, u, hrun, ht, hu⟩ := run_wideExpansion_parts hv h hs
  obtain ⟨loadHigh, double, loadLow, combine, -, -, -, hcombine, rfl⟩ := wideExpansion_inv h
  have hlast : u.RunsNext [combine] := hs.after (cfg := cfg) hrun
  obtain ⟨x, hadd, hx⟩ := run_add hv hlast hcombine
  have hsum : u.readReg dst + u.readReg sc = v := by
    rw [hu.value, hu.others sc hne, ht.value, ← BitVec.ofNat_add, Nat.add_comm, high7_mul_add_low25,
      BitVec.ofNat_toNat, BitVec.setWidth_eq]
  rw [hsum] at hx
  rw [ofNat_high7_mul] at ht
  exact ⟨t, x, runWith_trans hrun hadd, ht, hu.trans hx⟩

end Expansions

/-- The registers after the run of an accepted LOAD_LITERAL (R66 (a) to (c)). -/
theorem run_loadLiteral {cfg : Config} {dst : Nat} {v : Word} {scratch : Option Nat} {ws : List Word} {s : State}
    (hv : cfg.valid = true) (h : loadLiteral cfg dst v scratch = .ok (.ok ws)) (hs : s.RunsNext ws) :
    ∃ t, runWith cfg ws.length s = .next t ∧ t.readReg dst = v ∧ ∀ r, r ≠ dst → t.readReg r =
      if literalPath v = .wide ∧ scratch = some r then v &&& (0xFE000000 : Word) else s.readReg r := by
  obtain ⟨hpath, hdirect⟩ | ⟨hpath, hcomplemented⟩ | ⟨hpath, sc, rfl, hne, hwide⟩ := loadLiteral_inv h
  case inl =>
    obtain ⟨t, hrun, ht⟩ := run_directExpansion hv hdirect hs
    exact ⟨t, hrun, ht.value, fun r hr => by simp [hpath, ht.others r hr]⟩
  case inr.inl =>
    obtain ⟨t, hrun, ht⟩ := run_complementExpansion hv hcomplemented hs
    exact ⟨t, hrun, ht.value, fun r hr => by simp [hpath, ht.others r hr]⟩
  case inr.inr =>
    obtain ⟨t, u, hrun, ht, hu⟩ := run_wideExpansion hv hwide hne hs
    refine ⟨u, hrun, hu.value, fun r hr => ?_⟩
    rw [hu.others r hr]
    split
    case isTrue hscratch =>
      obtain ⟨-, hscratch⟩ := hscratch
      cases hscratch
      exact ht.value
    case isFalse hother => exact ht.others r fun heq => hother ⟨hpath, by rw [heq]⟩

/-- Settles O27: the registers by the run of each path, the rest by the frame of a run without requests. -/
theorem expansionLoadsTheLiteral : Obligations.ExpansionLoadsTheLiteral := by
  unfold Obligations.ExpansionLoadsTheLiteral
  intro cfg dst v scratch ws s hv h hs
  obtain ⟨t, hrun, hdst, hothers⟩ := run_loadLiteral hv h hs
  obtain ⟨hp, -⟩ := hs
  exact ⟨t, hrun, runWith_frame hp hrun, hdst, fun r _ hr => hothers r hr⟩

/-- Settles O28: the numbers path 3 adds stay below `2^32`, so the words in the registers are those numbers. -/
theorem wideExpansionNeverWraps : Obligations.WideExpansionNeverWraps := by
  unfold Obligations.WideExpansionNeverWraps
  intro cfg dst sc v ws s hv h hpath hs
  obtain ⟨hdirect, -⟩ | ⟨hcomplemented, -⟩ | ⟨-, _, hsome, hne, hwide⟩ := loadLiteral_inv h
  case inl => rw [hpath] at hdirect; cases hdirect
  case inr.inl => rw [hpath] at hcomplemented; cases hcomplemented
  case inr.inr =>
    cases hsome
    refine ⟨fun k hk => ⟨high7_mul_two_pow_lt v hk, ?doubled⟩, ?parts⟩
    case doubled =>
      obtain ⟨t, hrun, ht⟩ := run_wideExpansion_doublings hv hwide hs hk
      refine ⟨t, hrun, ?_⟩
      rw [ht.value, BitVec.toNat_ofNat, Nat.mod_eq_of_lt (high7_mul_two_pow_lt v hk)]
    case parts =>
      obtain ⟨t, u, hrun, ht, hu⟩ := run_wideExpansion_parts hv hwide hs
      have hlow : low25 v < 2 ^ 32 := (fieldValue_lt v 25 0).trans (by decide)
      refine ⟨u, hrun, ?_⟩
      rw [hu.value, hu.others sc hne, ht.value, BitVec.toNat_ofNat, BitVec.toNat_ofNat, Nat.mod_eq_of_lt hlow,
        Nat.mod_eq_of_lt (high7_mul_two_pow_lt v (Nat.le_refl 25)), Nat.add_comm, high7_mul_add_low25]

/-- Settles O30: the request's step puts the expansion at the position, and the run of the expansion ends the
session. -/
theorem requestedLiteralReachesRegister : Obligations.RequestedLiteralReachesRegister := by
  unfold Obligations.RequestedLiteralReachesRegister
  intro cfg dst v scratch ws s hv hserve hp hpos
  have hstep := stepWith_serve_ok hv hp hserve
  have hnext : State.RunsNext { s.deliver (.expansion ws) with pending := [] } ws := by
    refine ⟨rfl, ?_⟩
    rw [State.deliver_words, State.deliver_pos, hpos, List.drop_left]
    exact List.prefix_rfl
  obtain ⟨t, hrun, hframe, hdst, -⟩ :=
    expansionLoadsTheLiteral cfg dst v scratch ws _ hv (loadLiteral_of_serve_expansion hserve) hnext
  refine ⟨t, runWith_trans (runWith_one hstep) hrun, ?finished, hdst, ?words, ?replies, ?reports⟩
  case finished => rw [hframe]; simp [State.finished, hpos]
  case words => rw [hframe]; exact s.deliver_words _
  case replies => rw [hframe]; exact s.deliver_replies _
  case reports =>
    rw [hframe]
    calc (s.deliver (.expansion ws)).reports
      _ = (s.reportReply (.expansion ws)).reports := s.deliver_reports _
      _ = s.reports := by rw [s.reportReply_eq_self (.expansion ws) rfl]

end Sys2Proof.Machine
end

section
/-! The checking interpreter (43_reference_semantics.md): which instruction a word stands for, what each of the four
leaves, what one step does, and runs over a whole word sequence. -/

namespace Sys2Proof.Machine

/-! ### The instruction of a word (R68) -/

/-- The decoder, by the named bits of the word; the order of the codes matters to no valid configuration. -/
theorem decodeWord_eq (cfg : Config) (w : Word) :
    decodeWord cfg w =
      if w.extractLsb' 28 4 = cfg.opcLoadval then
        .ok (.loadval (w.extractLsb' 25 3).toNat (w.extractLsb' 0 25).toNat)
      else if w.extractLsb' 28 4 = cfg.opcNand then
        .ok (.nand (w.extractLsb' 6 3).toNat (w.extractLsb' 3 3).toNat (w.extractLsb' 0 3).toNat)
      else if w.extractLsb' 28 4 = cfg.opcAdd then
        .ok (.add (w.extractLsb' 6 3).toNat (w.extractLsb' 3 3).toNat (w.extractLsb' 0 3).toNat)
      else if w.extractLsb' 28 4 = cfg.opcCmov then
        .ok (.cmov (w.extractLsb' 6 3).toNat (w.extractLsb' 3 3).toNat (w.extractLsb' 0 3).toNat)
      else .error (.otherCode w) := by
  simp only [← fieldValue_eq_toNat_iff, ← fieldValue_eq_extractLsb']
  split
  case isTrue hop => exact decodeWord_immediate (fieldView_of_opcode_eq hop)
  case isFalse hop => exact decodeWord_threeRegister (fieldView_of_opcode_ne hop)

/-- Settles O19: the decoder by its two field views, whose values are the named bits. -/
theorem opcodeFieldSelectsInstruction : Obligations.OpcodeFieldSelectsInstruction := by
  unfold Obligations.OpcodeFieldSelectsInstruction
  exact fun cfg w _ => decodeWord_eq cfg w

theorem hasMeaning_iff {cfg : Config} {w : Word} :
    hasMeaning cfg w = true ↔ w.extractLsb' 28 4 = cfg.opcCmov ∨ w.extractLsb' 28 4 = cfg.opcNand ∨
      w.extractLsb' 28 4 = cfg.opcAdd ∨ w.extractLsb' 28 4 = cfg.opcLoadval := by
  simp [hasMeaning, or_assoc]

/-- A word has a meaning and decodes, or has none and is refused by itself. -/
theorem decodeWord_cases (cfg : Config) (w : Word) :
    (hasMeaning cfg w = true ∧ ∃ i, decodeWord cfg w = .ok i) ∨
    (hasMeaning cfg w = false ∧ decodeWord cfg w = .error (.otherCode w)) := by
  rw [decodeWord_eq, ← Bool.not_eq_true, hasMeaning_iff]
  split
  case isTrue hloadval => exact .inl ⟨.inr (.inr (.inr hloadval)), _, rfl⟩
  case isFalse hloadval =>
    split
    case isTrue hnand => exact .inl ⟨.inr (.inl hnand), _, rfl⟩
    case isFalse hnand =>
      split
      case isTrue hadd => exact .inl ⟨.inr (.inr (.inl hadd)), _, rfl⟩
      case isFalse hadd =>
        split
        case isTrue hcmov => exact .inl ⟨.inl hcmov, _, rfl⟩
        case isFalse hcmov => exact .inr ⟨by simp [hloadval, hnand, hadd, hcmov], rfl⟩

/-- The decoder gives only instructions whose operands fit: a decoded instruction has a word. -/
theorem decodeWord_wellFormed {cfg : Config} {w : Word} {i : Instr} (h : decodeWord cfg w = .ok i) :
    i.wellFormed = true :=
  encode_wellFormed (encode_of_decodeWord h)

/-- Where the image decodes at `4 * k`, it does so from word `k`. -/
theorem decodeBytes_serialize_drop_inv {cfg : Config} {ws : List Word} {k : Nat} {i : Instr} {rest : List Byte}
    (h : decodeBytes cfg ((serialize ws).drop (4 * k)) = .ok (i, rest)) :
    ∃ w, ws[k]? = some w ∧ decodeWord cfg w = .ok i := by
  by_cases hk : k < ws.length
  case pos =>
    rw [serialize_drop_of_lt ws hk, decodeBytes_wordBytes] at h
    refine ⟨ws[k], List.getElem?_eq_getElem hk, ?_⟩
    cases hd : decodeWord cfg ws[k] with
    | ok j => rw [hd] at h; cases h; rfl
    | error e => rw [hd] at h; cases h
  case neg =>
    rw [serialize_drop, List.drop_of_length_le (Nat.not_lt.mp hk)] at h
    cases h

theorem decodeWord_of_decodeTableWord {nbits n : Nat} {i : Instr} (h : decodeTableWord nbits n = some i) :
    decodeWord .umDefault (tableWord nbits n) = .ok i := by
  cases hd : decodeWord .umDefault (tableWord nbits n) with
  | ok j =>
    rw [decodeTableWord_eq_some hd] at h
    cases h
    rfl
  | error e =>
    rw [decodeTableWord_eq_none hd] at h
    cases h

/-! ### The four meanings (R69 to R72) -/

/-- An immediate-load instruction on operands that fit completes. -/
theorem immediateLoad_of_lt {a imm : Nat} (s : State) (ha : a < 8) (himm : imm < 2 ^ 25) :
    immediateLoad a imm s = .next (s.writeReg a (zeroExtendImmediate imm)).advance :=
  if_pos (Bool.and_eq_true_iff.mpr ⟨decide_eq_true ha, decide_eq_true himm⟩)

/-- A three-register instruction on registers that exist leaves in `x[A]` what `f` makes of the old values. -/
theorem threeRegister_result (f : Word → Word → Word → Word) {a b c : Nat} (s : State) (ha : a < 8) (hb : b < 8)
    (hc : c < 8) :
    ∃ t, threeRegister f a b c s = .next t ∧ t.readReg a = f (s.readReg a) (s.readReg b) (s.readReg c) :=
  ⟨_, threeRegister_of_lt f s ha hb hc, s.readReg_writeReg_same _ ha⟩

/-- Every well-formed instruction completes. -/
theorem exec_exists {i : Instr} (s : State) (hw : i.wellFormed = true) : ∃ t, exec i s = .next t := by
  cases i with
  | cmov a b c =>
    obtain ⟨ha, hb, hc⟩ := registersFit_iff.mp hw
    exact ⟨_, threeRegister_of_lt conditionalMove s ha hb hc⟩
  | add a b c =>
    obtain ⟨ha, hb, hc⟩ := registersFit_iff.mp hw
    exact ⟨_, threeRegister_of_lt (fun _ x y => addWord x y) s ha hb hc⟩
  | nand a b c =>
    obtain ⟨ha, hb, hc⟩ := registersFit_iff.mp hw
    exact ⟨_, threeRegister_of_lt (fun _ x y => nandWord x y) s ha hb hc⟩
  | loadval a imm =>
    obtain ⟨ha, himm⟩ := Bool.and_eq_true_iff.mp hw
    exact ⟨_, immediateLoad_of_lt s (of_decide_eq_true ha) (of_decide_eq_true himm)⟩

theorem zeroExtendImmediate_toNat {imm : Nat} (h : imm < 2 ^ 25) : (zeroExtendImmediate imm).toNat = imm := by
  rw [zeroExtendImmediate_eq h, BitVec.toNat_ofNat, Nat.mod_eq_of_lt (by omega)]

theorem nandWord_getLsbD (x y : Word) {i : Nat} (hi : i < 32) :
    (nandWord x y).getLsbD i = !(x.getLsbD i && y.getLsbD i) := by
  rw [nandWord, BitVec.getLsbD_not, BitVec.getLsbD_and, decide_eq_true hi, Bool.true_and]

theorem conditionHolds_iff {x : Word} : conditionHolds x = true ↔ x.toNat ≠ 0 := by
  rw [conditionHolds, bne_iff_ne]
  exact not_congr BitVec.toNat_inj.symm

/-- Settles O31: the register holds the extended literal, a number below `2^25`. -/
theorem loadvalLoadsZeroExtended : Obligations.LoadvalLoadsZeroExtended := by
  unfold Obligations.LoadvalLoadsZeroExtended
  intro a imm s ha himm
  have hvalue : (s.writeReg a (zeroExtendImmediate imm)).advance.readReg a = zeroExtendImmediate imm :=
    s.readReg_writeReg_same _ ha
  have hnat := zeroExtendImmediate_toNat himm
  refine ⟨_, immediateLoad_of_lt s ha himm, ?literal, fun i hi => ?topBits⟩
  case literal => rw [hvalue, hnat]
  case topBits => rw [hvalue, BitVec.getLsbD, hnat, testBit_eq_false_of_lt_two_pow himm hi]

/-- Settles O32: the result is the NAND of the old values, bit by bit. -/
theorem nandIsBitwiseOnOldValues : Obligations.NandIsBitwiseOnOldValues := by
  unfold Obligations.NandIsBitwiseOnOldValues
  intro a b c s ha hb hc
  obtain ⟨t, hexec, hvalue⟩ := threeRegister_result (fun _ x y => nandWord x y) s ha hb hc
  refine ⟨t, hexec, fun i hi => ?_⟩
  rw [hvalue, nandWord_getLsbD _ _ hi]

/-- Settles O33: the result is the word sum of the old values, which is taken modulo `2^32`. -/
theorem addIsModularOnOldValues : Obligations.AddIsModularOnOldValues := by
  unfold Obligations.AddIsModularOnOldValues
  intro a b c s ha hb hc
  obtain ⟨t, hexec, hvalue⟩ := threeRegister_result (fun _ x y => addWord x y) s ha hb hc
  refine ⟨t, hexec, ?_⟩
  rw [hvalue, addWord, BitVec.toNat_add]

/-- Settles O34: the result is chosen by whether the old `x[C]` is 0. -/
theorem cmovMovesWhenConditionNonzero : Obligations.CmovMovesWhenConditionNonzero := by
  unfold Obligations.CmovMovesWhenConditionNonzero
  intro a b c s ha hb hc
  obtain ⟨t, hexec, hvalue⟩ := threeRegister_result conditionalMove s ha hb hc
  refine ⟨t, hexec, fun hne => ?moves, fun hzero => ?keeps⟩
  case moves => rw [hvalue, conditionalMove, if_pos (conditionHolds_iff.mpr hne)]
  case keeps => rw [hvalue, conditionalMove, if_neg fun hcond => conditionHolds_iff.mp hcond hzero]

/-- Settles O35: the next state is the old one with the destination register written and the position one further. -/
theorem nativeInstructionsChangeOnlyDestination : Obligations.NativeInstructionsChangeOnlyDestination := by
  unfold Obligations.NativeInstructionsChangeOnlyDestination
  intro i s t h
  obtain ⟨-, v, rfl⟩ := exec_next h
  exact ⟨fun r hr => s.readReg_writeReg_of_ne v hr, rfl, rfl, fun _ => rfl, rfl, rfl, rfl, rfl⟩

/-! ### The step that runs a word (R67, R68) -/

/-- Settles O38: with no request open the step fetches the word, decodes it and executes it. -/
theorem stepRunsTheDecodedInstruction : Obligations.StepRunsTheDecodedInstruction := by
  unfold Obligations.StepRunsTheDecodedInstruction
  intro cfg s w i hv hp hw hi
  exact ⟨stepWith_eq_exec hv hp hw hi, rfl⟩

/-- Settles O39: the bytes at `4 * pos` are those of the word at the position. -/
theorem stepRunsTheInstructionInTheImage : Obligations.StepRunsTheInstructionInTheImage := by
  unfold Obligations.StepRunsTheInstructionInTheImage
  intro cfg s i rest hv hp hbytes
  obtain ⟨w, hw, hi⟩ := decodeBytes_serialize_drop_inv hbytes
  exact ⟨decodeWord_wellFormed hi, stepWith_eq_exec hv hp hw hi⟩

/-- Settles O40: the placed word stands at the position, and placing it leaves no request open. -/
theorem placedTableWordRunsNext : Obligations.PlacedTableWordRunsNext := by
  unfold Obligations.PlacedTableWordRunsNext
  intro s nbits n i h
  have hword : (s.withFetchWord nbits n).words[(s.withFetchWord nbits n).pos]? = some (tableWord nbits n) :=
    placeWord_getElem? s.words s.pos (tableWord nbits n)
  exact stepWith_eq_exec Config_umDefault_valid (placeNext_pending s _) hword (decodeWord_of_decodeTableWord h)

section Word

variable {cfg : Config} {s : State} {w : Word} (hv : cfg.valid = true) (hp : s.pending = [])
  (hw : s.words[s.pos]? = some w)

include hv hp hw

/-- A word with a meaning decodes to a well-formed instruction, so its step goes on. -/
theorem stepWith_of_hasMeaning (hm : hasMeaning cfg w = true) : ∃ t, stepWith cfg s = .next t := by
  obtain ⟨-, i, hi⟩ | ⟨hnone, -⟩ := decodeWord_cases cfg w
  case inl =>
    rw [stepWith_eq_exec hv hp hw hi]
    exact exec_exists s (decodeWord_wellFormed hi)
  case inr => simp [hm] at hnone

theorem stepWith_of_not_hasMeaning (hm : hasMeaning cfg w = false) : stepWith cfg s = .refused (.otherCode w) := by
  obtain ⟨hsome, -⟩ | ⟨-, hi⟩ := decodeWord_cases cfg w
  case inl => simp [hm] at hsome
  case inr => simp only [stepWith_runWord hv hp, runWord, fetchWord, hw, hi]

end Word

/-- After the last word the run is over. -/
theorem stepWith_of_length_le {cfg : Config} {s : State} (hv : cfg.valid = true) (hp : s.pending = [])
    (hend : s.words.length ≤ s.pos) : stepWith cfg s = .fault .runEnded := by
  simp only [stepWith_runWord hv hp, runWord, fetchWord, List.getElem?_eq_none hend]

/-- Settles O41: the word at the position has a meaning and goes on, or has none and is refused. -/
theorem runStopsAtUnknownCodeOrEnd : Obligations.RunStopsAtUnknownCodeOrEnd := by
  unfold Obligations.RunStopsAtUnknownCodeOrEnd
  intro cfg s hv hp
  refine ⟨fun w hw => ?word, stepWith_of_length_le hv hp⟩
  case word =>
    cases hm : hasMeaning cfg w with
    | true =>
      obtain ⟨t, ht⟩ := stepWith_of_hasMeaning hv hp hw hm
      simp [ht]
    | false => simp [stepWith_of_not_hasMeaning hv hp hw hm]

/-! ### The session invariant -/

/-- The errors reported after a reply are those reported before it and the reply's own, if it is one (R77). -/
theorem State.reports_error_reportReply (s : State) (reply : Reply) :
    (s.reportReply reply).reports.map Report.error =
      s.reports.map Report.error ++ [reply].filterMap Reply.userError := by
  cases hu : reply.userError with
  | none => simp [s.reportReply_eq_self reply hu, hu]
  | some e => simp [State.reportReply, hu]

/-- A delivery adds the reply's words to the sink and its error to the reports, as the invariant counts them. -/
theorem State.Inv.of_deliver {s : State} (reply : Reply) (rest : List Request) (hs : s.Inv) :
    State.Inv { s.deliver reply with pending := rest } := by
  obtain ⟨hpos, hwords, hreports⟩ := hs
  refine ⟨?position, ?sink, ?reports⟩
  case position =>
    rw [State.deliver_pos, State.deliver_words, List.length_append]
    exact hpos.trans (Nat.le_add_right _ _)
  case sink =>
    rw [State.deliver_words, State.deliver_replies, List.flatMap_append, List.flatMap_singleton, ← hwords]
  case reports =>
    rw [State.deliver_reports, State.deliver_replies, State.reports_error_reportReply, hreports,
      List.filterMap_append]

/-- An instruction run from a word of the sequence goes on to the next word or just after the last one. -/
theorem State.Inv.of_exec {i : Instr} {s t : State} (hs : s.Inv) (hpos : s.pos < s.words.length)
    (h : exec i s = .next t) : t.Inv := by
  obtain ⟨-, hwords, hreports⟩ := hs
  obtain ⟨-, v, rfl⟩ := exec_next h
  exact ⟨hpos, hwords, hreports⟩

/-- Settles O55: a step delivers a reply or runs the instruction of a word of the sequence, and both keep the
invariant. -/
theorem everyStepKeepsSessionInvariant : Obligations.EveryStepKeepsSessionInvariant := by
  unfold Obligations.EveryStepKeepsSessionInvariant
  intro cfg s t hs hstep
  obtain ⟨-, ⟨r, rest, reply, -, -, rfl⟩ | ⟨w, i, -, hw, -, hexec⟩⟩ := stepWith_next hstep
  case inl => exact hs.of_deliver reply rest
  case inr =>
    obtain ⟨hpos, -⟩ := List.getElem?_eq_some_iff.mp hw
    exact hs.of_exec hpos hexec

/-! ### Runs over a word sequence (R67) -/

theorem State.RunsNext.start (x0 : RegFile) (ws : List Word) : (State.start x0 ws).RunsNext ws :=
  ⟨rfl, List.prefix_rfl⟩

theorem State.RunsNext.pending_eq_nil {s : State} {ws : List Word} (h : s.RunsNext ws) : s.pending = [] := by
  obtain ⟨hp, -⟩ := h
  exact hp

/-- After the step of its first word, a session is about to run the rest. -/
theorem State.RunsNext.tail {cfg : Config} {s t : State} {w : Word} {ws : List Word} (h : s.RunsNext (w :: ws))
    (hstep : stepWith cfg s = .next t) : t.RunsNext ws :=
  State.RunsNext.after (ws := [w]) h (runWith_one hstep)

/-- Words that all have a meaning all run. -/
theorem runWith_of_hasMeaning {cfg : Config} {s : State} {ws : List Word} (hv : cfg.valid = true)
    (hs : s.RunsNext ws) (hm : ∀ w ∈ ws, hasMeaning cfg w = true) : ∃ t, runWith cfg ws.length s = .next t := by
  induction ws generalizing s with
  | nil => exact ⟨s, runWith_zero cfg s⟩
  | cons w ws ih =>
    obtain ⟨hw, hws⟩ := List.forall_mem_cons.mp hm
    obtain ⟨u, hstep⟩ := stepWith_of_hasMeaning hv hs.pending_eq_nil hs.getElem? hw
    obtain ⟨t, hrun⟩ := ih (hs.tail hstep) hws
    exact ⟨t, (runWith_succ_next ws.length hstep).trans hrun⟩

/-- Settles O42: the words with a meaning run, and the first word without one stands at the position after them. -/
theorem interpreterRunsAllWordsOrRefuses : Obligations.InterpreterRunsAllWordsOrRefuses := by
  unfold Obligations.InterpreterRunsAllWordsOrRefuses
  intro cfg x0 ws hv
  refine ⟨fun hm => ?all, fun pre w post hws hpre hw => ?refused⟩
  case all =>
    obtain ⟨t, hrun⟩ := runWith_of_hasMeaning hv (.start x0 ws) hm
    have hframe := runWith_frame rfl hrun
    have hpos : t.pos = ws.length := by rw [hframe]; exact Nat.zero_add _
    have hwords : t.words = ws := by rw [hframe]; rfl
    have hpending : t.pending = [] := by rw [hframe]; rfl
    exact ⟨t, hrun, hwords, hpos, by simp [State.finished, hpending, hwords, hpos]⟩
  case refused =>
    subst hws
    have hstart : (State.start x0 (pre ++ w :: post)).RunsNext (pre ++ w :: post) := .start x0 _
    obtain ⟨t, hrun⟩ := runWith_of_hasMeaning hv hstart.of_append hpre
    have hnext : t.RunsNext (w :: post) := hstart.after hrun
    have hstep := stepWith_of_not_hasMeaning hv hnext.pending_eq_nil hnext.getElem? hw
    rw [interpret, List.length_append, runWith_add, hrun]
    simp only [List.length_cons, runWith_succ, hstep]

/-- What a run of the interpreter answers: its final registers, or the stop (R67). -/
def finalRegs : Host.Outcome State Fault Refusal → Host.Outcome RegFile Fault Refusal
  | .next t => .next t.regs
  | .fault f => .fault f
  | .refused q => .refused q

theorem finalRegs_eq_next_iff {o : Host.Outcome State Fault Refusal} {x : RegFile} :
    finalRegs o = .next x ↔ ∃ t, o = .next t ∧ t.regs = x := by
  cases o <;> simp [finalRegs]

theorem finalRegs_eq_fault_iff {o : Host.Outcome State Fault Refusal} {f : Fault} :
    finalRegs o = .fault f ↔ o = .fault f := by
  cases o <;> simp [finalRegs]

theorem finalRegs_eq_refused_iff {o : Host.Outcome State Fault Refusal} {q : Refusal} :
    finalRegs o = .refused q ↔ o = .refused q := by
  cases o <;> simp [finalRegs]

theorem State.readReg_congr {s s' : State} (h : s.regs = s'.regs) (r : Nat) : s.readReg r = s'.readReg r := by
  rw [State.readReg, h, State.readReg]

theorem finalRegs_threeRegister (f : Word → Word → Word → Word) (a b c : Nat) (s : State) :
    finalRegs (threeRegister f a b c s) =
      if registerFits a && registerFits b && registerFits c then
        .next (s.regs.setIfInBounds a (f (s.readReg a) (s.readReg b) (s.readReg c)))
      else .refused .illFormedOperand := by
  unfold threeRegister
  split <;> rfl

theorem finalRegs_immediateLoad (a imm : Nat) (s : State) :
    finalRegs (immediateLoad a imm s) =
      if registerFits a && immediateFits imm then .next (s.regs.setIfInBounds a (zeroExtendImmediate imm))
      else .refused .illFormedOperand := by
  unfold immediateLoad
  split <;> rfl

/-- The registers a meaning leaves, and whether it refuses, depend on the registers it finds and nothing else. -/
theorem finalRegs_exec_congr {s s' : State} (h : s.regs = s'.regs) (i : Instr) :
    finalRegs (exec i s) = finalRegs (exec i s') := by
  have hthree (f : Word → Word → Word → Word) (a b c : Nat) :
      finalRegs (threeRegister f a b c s) = finalRegs (threeRegister f a b c s') := by
    simp only [finalRegs_threeRegister, State.readReg_congr h, h]
  cases i with
  | cmov a b c => exact hthree conditionalMove a b c
  | add a b c => exact hthree (fun _ x y => addWord x y) a b c
  | nand a b c => exact hthree (fun _ x y => nandWord x y) a b c
  | loadval a imm =>
    change finalRegs (immediateLoad a imm s) = finalRegs (immediateLoad a imm s')
    rw [finalRegs_immediateLoad, finalRegs_immediateLoad, h]

/-- So do those of the step that runs a given word. -/
theorem finalRegs_stepWith_congr {cfg : Config} {s s' : State} {w : Word} (hv : cfg.valid = true)
    (hp : s.pending = []) (hp' : s'.pending = []) (hw : s.words[s.pos]? = some w) (hw' : s'.words[s'.pos]? = some w)
    (h : s.regs = s'.regs) : finalRegs (stepWith cfg s) = finalRegs (stepWith cfg s') := by
  obtain ⟨-, i, hi⟩ | ⟨hm, -⟩ := decodeWord_cases cfg w
  case inl => rw [stepWith_eq_exec hv hp hw hi, stepWith_eq_exec hv hp' hw' hi, finalRegs_exec_congr h]
  case inr => rw [stepWith_of_not_hasMeaning hv hp hw hm, stepWith_of_not_hasMeaning hv hp' hw' hm]

/-- Two sessions about to run the same words from the same registers answer the same, whatever else they hold and
wherever in their sequences the words stand. -/
theorem finalRegs_runWith_congr {cfg : Config} {ws : List Word} {s s' : State} (hv : cfg.valid = true)
    (hs : s.RunsNext ws) (hs' : s'.RunsNext ws) (h : s.regs = s'.regs) :
    finalRegs (runWith cfg ws.length s) = finalRegs (runWith cfg ws.length s') := by
  induction ws generalizing s s' with
  | nil => exact congrArg Host.Outcome.next h
  | cons w ws ih =>
    have hstep := finalRegs_stepWith_congr hv hs.pending_eq_nil hs'.pending_eq_nil hs.getElem? hs'.getElem? h
    rw [List.length_cons, runWith_succ, runWith_succ]
    cases ht : stepWith cfg s with
    | next t =>
      rw [ht] at hstep
      obtain ⟨t', ht', hregs⟩ := finalRegs_eq_next_iff.mp hstep.symm
      rw [ht']
      exact ih (hs.tail ht) (hs'.tail ht') hregs.symm
    | fault f =>
      rw [ht] at hstep
      rw [finalRegs_eq_fault_iff.mp hstep.symm]
    | refused q =>
      rw [ht] at hstep
      rw [finalRegs_eq_refused_iff.mp hstep.symm]

/-- A run over two sequences answers what the run over the second does from the registers the first left. -/
theorem finalRegs_interpret_append {cfg : Config} {x0 : RegFile} {ws ws' : List Word} {t : State}
    (hv : cfg.valid = true) (h : interpret cfg x0 ws = .next t) :
    finalRegs (interpret cfg x0 (ws ++ ws')) = finalRegs (interpret cfg t.regs ws') := by
  have hstart : (State.start x0 (ws ++ ws')).RunsNext (ws ++ ws') := .start x0 _
  have hfirst : finalRegs (runWith cfg ws.length (State.start x0 (ws ++ ws'))) = .next t.regs :=
    calc finalRegs (runWith cfg ws.length (State.start x0 (ws ++ ws')))
      _ = finalRegs (interpret cfg x0 ws) := finalRegs_runWith_congr hv hstart.of_append (.start x0 ws) rfl
      _ = .next t.regs := by rw [h]; rfl
  obtain ⟨u, hrun, hregs⟩ := finalRegs_eq_next_iff.mp hfirst
  calc finalRegs (interpret cfg x0 (ws ++ ws'))
    _ = finalRegs (runWith cfg ws'.length u) := by rw [interpret, List.length_append, runWith_add, hrun]
    _ = finalRegs (interpret cfg t.regs ws') :=
      finalRegs_runWith_congr hv (hstart.after hrun) (.start t.regs ws') hregs

/-- Settles O43: the final registers, or the refusal, of the two runs are equal. -/
theorem interpreterRunsCompose : Obligations.InterpreterRunsCompose := by
  unfold Obligations.InterpreterRunsCompose
  intro cfg x0 ws ws' t hv h
  have happend := finalRegs_interpret_append (ws' := ws') hv h
  refine ⟨fun u hu => ?ends, fun w hw => ?refused⟩
  case ends =>
    rw [hu] at happend
    exact finalRegs_eq_next_iff.mp happend
  case refused =>
    rw [hw] at happend
    exact finalRegs_eq_refused_iff.mp happend

end Sys2Proof.Machine
end

section
/-! The errors (60_exceptions.md): which fault each request reports and of which kind, that a fatal fault ends the run,
and that neither a user-facing error nor the callback reaches the rest of a run. -/

namespace Sys2Proof.Machine

open Sys2Proof.Laws

/-! ### The fault a request reports (R80) -/

/-- A check that faults is the outcome where it applies; where it does not, the checks after it decide. -/
theorem ite_error_eq_error_iff {α : Type} {p : Prop} [Decidable p] {f g : Fatal} {x : Except Fatal α} :
    (if p then .error g else x) = .error f ↔ (p ∧ f = g) ∨ (¬ p ∧ x = .error f) := by
  split
  case isTrue hp => simp only [hp, Except.error.injEq, eq_comm, true_and, not_true, false_and, or_false]
  case isFalse hp => simp only [hp, false_and, false_or, not_false_eq_true, true_and]

theorem map_eq_error_iff {α β : Type} {x : Except Fatal α} {g : α → β} {f : Fatal} :
    x.map g = .error f ↔ x = .error f := by
  cases x with
  | ok a => simp only [Except.map, reduceCtorEq]
  | error e => simp only [Except.map, Except.error.injEq]

/-- The fault of EXTRACT (R50). -/
theorem serve_extract_eq_error_iff (cfg : Config) (w : Word) (width lsb : Nat) (f : Fatal) :
    serve cfg (.extract w width lsb) = .error f ↔ 32 < width + lsb ∧ f = .codecContractViolation width lsb := by
  rw [serve_extract, map_eq_error_iff, extractUnsigned]
  simp only [ite_error_eq_error_iff, reduceCtorEq, and_false, or_false]

/-- The faults of INSERT, each under what it takes for no earlier one to apply. -/
theorem serve_insert_eq_error_iff (cfg : Config) (w : Word) (width lsb value : Nat) (f : Fatal) :
    serve cfg (.insert w width lsb value) = .error f ↔
      (32 < width + lsb ∧ f = .codecContractViolation width lsb) ∨
      (width + lsb ≤ 32 ∧ 2 ^ width ≤ value ∧ f = .immediateOutOfRange (.field width lsb value)) := by
  rw [serve_insert, map_eq_error_iff, insertUnsigned]
  simp only [ite_error_eq_error_iff, reduceCtorEq, and_false, or_false, Nat.not_lt]

/-- The faults of ENC_IMM. -/
theorem serve_encImm_eq_error_iff (cfg : Config) (a v : Nat) (f : Fatal) :
    serve cfg (.encImm a v) = .error f ↔
      (8 ≤ a ∧ f = .immediateOutOfRange (.field 3 25 a)) ∨
      (a < 8 ∧ 2 ^ 25 ≤ v ∧ f = .immediateOutOfRange (.field 25 0 v)) := by
  rw [encImmWordAndFaults cfg a v]
  simp only [ite_error_eq_error_iff, reduceCtorEq, and_false, or_false, Nat.not_le]

/-- The faults of ENC_REG. -/
theorem serve_encReg_eq_error_iff (cfg : Config) (o a b c : Nat) (f : Fatal) :
    serve cfg (.encReg o a b c) = .error f ↔
      (16 ≤ o ∧ f = .immediateOutOfRange (.operand .op o)) ∨
      (o < 16 ∧ o = cfg.opcLoadval.toNat ∧ f = .opcodeShapeMismatch o) ∨
      (o < 16 ∧ o ≠ cfg.opcLoadval.toNat ∧
        ((8 ≤ a ∧ f = .immediateOutOfRange (.field 3 6 a)) ∨
         (a < 8 ∧ 8 ≤ b ∧ f = .immediateOutOfRange (.field 3 3 b)) ∨
         (a < 8 ∧ b < 8 ∧ 8 ≤ c ∧ f = .immediateOutOfRange (.field 3 0 c)))) := by
  rw [encRegWordAndFaults cfg o a b c]
  simp only [ite_error_eq_error_iff, reduceCtorEq, and_false, or_false, Nat.not_le, and_or_left]

/-- Settles O10: the faults of the three requests, in the order of their checks. -/
theorem firstApplicableFaultIsReported : Obligations.FirstApplicableFaultIsReported := by
  unfold Obligations.FirstApplicableFaultIsReported
  exact ⟨serve_encReg_eq_error_iff, serve_encImm_eq_error_iff, serve_insert_eq_error_iff⟩

/-! ### The kinds of errors (R75) -/

/-- Settles O52: the table row by row, then the kind of each fault and of each user-facing error. -/
theorem errorKindsHaveTheirCodesAndClasses : Obligations.ErrorKindsHaveTheirCodesAndClasses := by
  unfold Obligations.ErrorKindsHaveTheirCodesAndClasses
  refine ⟨⟨rfl, rfl, rfl, rfl, rfl⟩, fun f => ?fatal, fun e => ?userFacing⟩
  case fatal =>
    cases f with
    | immediateOutOfRange => rfl
    | codecContractViolation => rfl
    | opcodeShapeMismatch => rfl
  case userFacing =>
    cases e with
    | missingScratchRegister => rfl
    | scratchAliasesDestination => rfl

/-- With operands in range, LOAD_LITERAL answers words or a user-facing error, never a fault (R59, R63). -/
theorem serve_loadLiteral_exists {cfg : Config} {dst : Nat} {scratch : Option Nat} (v : Word)
    (hv : cfg.valid = true) (hdst : dst < 8) (hs : ∀ s ∈ scratch, s < 8) :
    ∃ reply, serve cfg (.loadLiteral dst v scratch) = .ok reply := by
  obtain ⟨-, -, hmissing, haliased, hsuccess⟩ := literalErrorsFollowPriority cfg dst v scratch hv
  by_cases hwide : 2 ^ 25 ≤ v.toNat ∧ 2 ^ 25 ≤ (~~~v).toNat
  case neg =>
    obtain ⟨ws, hws⟩ := hsuccess hdst hs fun h => absurd h hwide
    exact ⟨_, hws⟩
  case pos =>
    cases scratch with
    | none => exact ⟨_, hmissing hdst rfl hwide⟩
    | some s =>
      by_cases hne : s = dst
      case pos => exact ⟨_, haliased hdst (congrArg some hne) hwide⟩
      case neg =>
        obtain ⟨ws, hws⟩ := hsuccess hdst hs fun _ => ⟨s, rfl, hne⟩
        exact ⟨_, hws⟩

/-- A fault of LOAD_LITERAL is that of an operand check (R59). -/
theorem serve_loadLiteral_error {cfg : Config} {dst : Nat} {v : Word} {scratch : Option Nat} {f : Fatal}
    (hv : cfg.valid = true) (h : serve cfg (.loadLiteral dst v scratch) = .error f) :
    ∃ name value, f = .immediateOutOfRange (.operand name value) := by
  by_cases hdst : dst < 8
  case neg =>
    have hcheck := checkLiteralOperands_dst scratch (Nat.le_of_not_lt hdst)
    exact ⟨_, _, Except.error.inj (h.symm.trans (serve_loadLiteral_of_check_error hcheck))⟩
  by_cases hs : ∀ s ∈ scratch, s < 8
  case neg =>
    push Not at hs
    obtain ⟨s, rfl, hge⟩ := hs
    have hcheck := checkLiteralOperands_scratch hdst hge
    exact ⟨_, _, Except.error.inj (h.symm.trans (serve_loadLiteral_of_check_error hcheck))⟩
  case pos =>
    obtain ⟨reply, hreply⟩ := serve_loadLiteral_exists v hv hdst hs
    rw [hreply] at h
    cases h

/-- LOAD_LITERAL's user-facing errors are path 3's (R63). -/
theorem loadLiteral_userError_inv {cfg : Config} {dst : Nat} {v : Word} {scratch : Option Nat} {e : UserError}
    (h : loadLiteral cfg dst v scratch = .ok (.error e)) : literalPath v = .wide := by
  obtain ⟨_, -, hexpand⟩ := bind_eq_ok h
  clear h
  split at hexpand
  case h_1 => obtain ⟨_, -, hexpand⟩ := bind_eq_ok hexpand; cases hexpand
  case h_2 => obtain ⟨_, -, hexpand⟩ := bind_eq_ok hexpand; cases hexpand
  case h_3 hpath => exact hpath
  case h_4 hpath => exact hpath

/-- A user-facing error answers a LOAD_LITERAL on path 3 only (R63, R75). -/
theorem serve_userError_inv {cfg : Config} {r : Request} {e : UserError} (h : serve cfg r = .ok (.error e)) :
    ∃ dst v scratch, r = .loadLiteral dst v scratch ∧ literalPath v = .wide := by
  cases r with
  | extract => obtain ⟨_, -, h⟩ := bind_eq_ok h; cases h
  | insert => obtain ⟨_, -, h⟩ := bind_eq_ok h; cases h
  | encReg => obtain ⟨_, -, h⟩ := bind_eq_ok h; cases h
  | encImm => obtain ⟨_, -, h⟩ := bind_eq_ok h; cases h
  | loadLiteral dst v scratch =>
    obtain ⟨result, hresult, h⟩ := bind_eq_ok h
    cases result with
    | ok ws => cases h
    | error e' => exact ⟨dst, v, scratch, rfl, loadLiteral_userError_inv hresult⟩

/-- Settles O53: the faults of each request, and where its user-facing errors come from. -/
theorem eachRequestRaisesOnlyItsKinds : Obligations.EachRequestRaisesOnlyItsKinds := by
  unfold Obligations.EachRequestRaisesOnlyItsKinds
  refine ⟨fun cfg w width lsb f h => ?extract, fun cfg w width lsb v f h => ?insert, fun cfg o a b c f h => ?encReg,
    fun cfg a v f h => ?encImm, fun _ _ _ _ f hv h => ?loadLiteral, fun _ _ _ => serve_userError_inv⟩
  case extract =>
    obtain ⟨-, rfl⟩ := (serve_extract_eq_error_iff cfg w width lsb f).mp h
    rfl
  case insert =>
    obtain ⟨-, rfl⟩ | ⟨-, -, rfl⟩ := (serve_insert_eq_error_iff cfg w width lsb v f).mp h
    · exact .inl rfl
    · exact .inr rfl
  case encReg =>
    obtain ⟨-, rfl⟩ | ⟨-, -, rfl⟩ | ⟨-, -, ⟨-, rfl⟩ | ⟨-, -, rfl⟩ | ⟨-, -, -, rfl⟩⟩ :=
      (serve_encReg_eq_error_iff cfg o a b c f).mp h
    · exact .inr rfl
    · exact .inl rfl
    · exact .inr rfl
    · exact .inr rfl
    · exact .inr rfl
  case encImm =>
    obtain ⟨-, rfl⟩ | ⟨-, -, rfl⟩ := (serve_encImm_eq_error_iff cfg a v f).mp h
    · rfl
    · rfl
  case loadLiteral =>
    obtain ⟨_, _, rfl⟩ := serve_loadLiteral_error hv h
    rfl

/-! ### A fatal fault in a session (R76) -/

/-- Serving the oldest request stops the session exactly with the request's own fault. -/
theorem stepWith_eq_fatal_iff {cfg : Config} {s : State} {r : Request} {rest : List Request} {f : Fatal}
    (hv : cfg.valid = true) (hp : s.pending = r :: rest) :
    stepWith cfg s = .fault (.fatal f) ↔ serve cfg r = .error f := by
  refine ⟨fun h => ?forward, stepWith_serve_error hv hp⟩
  case forward =>
    cases hr : serve cfg r with
    | ok reply => rw [stepWith_serve_ok hv hp hr] at h; cases h
    | error g => rw [stepWith_serve_error hv hp hr] at h; cases h; rfl

/-- A run whose first step faults is that fault, however many steps it is given. -/
theorem runWith_of_fault {cfg : Config} {s : State} {f : Fault} (n : Nat) (h : stepWith cfg s = .fault f) :
    runWith cfg (n + 1) s = .fault f := by
  rw [runWith_succ, h]

/-- Settles O45: the step is the request's fault, and no step follows it. -/
theorem fatalFaultEndsTheRun : Obligations.FatalFaultEndsTheRun := by
  unfold Obligations.FatalFaultEndsTheRun
  intro cfg s r rest f hv hp
  exact ⟨(stepWith_eq_fatal_iff hv hp).symm, fun hr n => runWith_of_fault n (stepWith_serve_error hv hp hr)⟩

/-! ### Sessions that differ in what was answered, reported and returned by the callback only (R78) -/

/-- The sessions have the same open requests, words, position and registers: all that a step reads, but for the count of
reports that draws a message text. -/
structure State.SameWork (s s' : State) : Prop where
  pending : s'.pending = s.pending
  words : s'.words = s.words
  pos : s'.pos = s.pos
  regs : s'.regs = s.regs

/-- From `s` to `t` the replies `new` were delivered and their user-facing errors reported, to the same callback. -/
structure State.Answers (s t : State) (new : List Reply) : Prop where
  replies : t.replies = s.replies ++ new
  errors : t.reports.map Report.error = s.reports.map Report.error ++ new.filterMap Reply.userError
  callback : t.callback = s.callback

/-- A change of registers and position answers nothing. -/
theorem State.Answers.of_frame (s : State) {regs : RegFile} {pos : Nat} :
    s.Answers { s with regs := regs, pos := pos } [] :=
  ⟨(List.append_nil _).symm, (List.append_nil _).symm, rfl⟩

theorem State.Answers.trans {s t u : State} {new later : List Reply} (hst : s.Answers t new)
    (htu : t.Answers u later) : s.Answers u (new ++ later) where
  replies := by rw [htu.replies, hst.replies, List.append_assoc]
  errors := by rw [htu.errors, hst.errors, List.filterMap_append, List.append_assoc]
  callback := htu.callback.trans hst.callback

theorem State.Answers.of_deliver (s : State) (reply : Reply) (rest : List Request) :
    s.Answers { s.deliver reply with pending := rest } [reply] where
  replies := s.deliver_replies reply
  errors := by rw [State.deliver_reports, State.reports_error_reportReply]
  callback := s.deliver_callback reply

/-- Delivering a reply does the same work in both sessions. -/
theorem State.SameWork.deliver {s s' : State} (h : s.SameWork s') (reply : Reply) (rest : List Request) :
    State.SameWork { s.deliver reply with pending := rest } { s'.deliver reply with pending := rest } where
  pending := rfl
  words := by rw [State.deliver_words, State.deliver_words, h.words]
  pos := by rw [State.deliver_pos, State.deliver_pos, h.pos]
  regs := by rw [State.deliver_regs, State.deliver_regs, h.regs]

/-- What `s` and `s'` came to is alike: the same stop, or two sessions that still do the same work and were given the
same new replies. -/
inductive Alike (s s' : State) :
    Host.Outcome State Fault Refusal → Host.Outcome State Fault Refusal → Prop where
  | next {t t' : State} {new : List Reply} (work : t.SameWork t') (answers : s.Answers t new)
      (answers' : s'.Answers t' new) : Alike s s' (.next t) (.next t')
  | fault (f : Fault) : Alike s s' (.fault f) (.fault f)
  | refused (q : Refusal) : Alike s s' (.refused q) (.refused q)

/-- Sessions that have come along alike go on to be alike. -/
theorem Alike.after {s s' t t' : State} {new : List Reply} {o o' : Host.Outcome State Fault Refusal}
    (h : s.Answers t new) (h' : s'.Answers t' new) (ho : Alike t t' o o') : Alike s s' o o' := by
  cases ho with
  | next work answers answers' => exact .next work (h.trans answers) (h'.trans answers')
  | fault f => exact .fault f
  | refused q => exact .refused q

/-- Steps that run a word change registers and position only, so they are alike when their registers, or stops, are. -/
theorem Alike.of_finalRegs {cfg : Config} {s s' : State} (h : s.SameWork s') (hp : s.pending = [])
    (hregs : finalRegs (stepWith cfg s) = finalRegs (stepWith cfg s')) :
    Alike s s' (stepWith cfg s) (stepWith cfg s') := by
  cases ht : stepWith cfg s with
  | next t =>
    rw [ht] at hregs
    obtain ⟨t', ht', hregs⟩ := finalRegs_eq_next_iff.mp hregs.symm
    rw [ht', stepWith_frame hp ht, stepWith_frame (h.pending.trans hp) ht']
    exact .next ⟨h.pending, h.words, congrArg (· + 1) h.pos, hregs⟩ (.of_frame s) (.of_frame s')
  | fault f =>
    rw [ht] at hregs
    rw [finalRegs_eq_fault_iff.mp hregs.symm]
    exact .fault f
  | refused q =>
    rw [ht] at hregs
    rw [finalRegs_eq_refused_iff.mp hregs.symm]
    exact .refused q

/-- A step serves the request, or runs the word, that it finds in both sessions. -/
theorem stepWith_alike (cfg : Config) {s s' : State} (h : s.SameWork s') :
    Alike s s' (stepWith cfg s) (stepWith cfg s') := by
  by_cases hv : cfg.valid = true
  case neg =>
    rw [stepWith, stepWith, if_neg hv, if_neg hv]
    exact .refused .invalidConfiguration
  cases hp : s.pending with
  | cons r rest =>
    have hp' : s'.pending = r :: rest := h.pending.trans hp
    cases hr : serve cfg r with
    | ok reply =>
      rw [stepWith_serve_ok hv hp hr, stepWith_serve_ok hv hp' hr]
      exact .next (h.deliver reply rest) (.of_deliver s reply rest) (.of_deliver s' reply rest)
    | error f =>
      rw [stepWith_serve_error hv hp hr, stepWith_serve_error hv hp' hr]
      exact .fault (.fatal f)
  | nil =>
    have hp' : s'.pending = [] := h.pending.trans hp
    have hfetch : s'.words[s'.pos]? = s.words[s.pos]? := by rw [h.words, h.pos]
    cases hw : s.words[s.pos]? with
    | some w =>
      exact .of_finalRegs h hp (finalRegs_stepWith_congr hv hp hp' hw (hfetch.trans hw) h.regs.symm)
    | none =>
      have hend := List.getElem?_eq_none_iff.mp hw
      have hend' := List.getElem?_eq_none_iff.mp (hfetch.trans hw)
      rw [stepWith_of_length_le hv hp hend, stepWith_of_length_le hv hp' hend']
      exact .fault .runEnded

/-- So does a run of any length. -/
theorem runWith_alike (cfg : Config) (n : Nat) {s s' : State} (h : s.SameWork s') :
    Alike s s' (runWith cfg n s) (runWith cfg n s') := by
  induction n generalizing s s' with
  | zero => exact .next h (.of_frame s) (.of_frame s')
  | succ n ih =>
    rw [runWith_succ, runWith_succ]
    have hstep := stepWith_alike cfg h
    generalize stepWith cfg s = o, stepWith cfg s' = o' at hstep ⊢
    cases hstep with
    | next work answers answers' => exact (ih work).after answers answers'
    | fault f => exact .fault f
    | refused q => exact .refused q

section Alike

variable {s s' : State} {o o' : Host.Outcome State Fault Refusal} (h : Alike s s' o o')

include h

theorem Alike.next_inv {t : State} (ho : o = .next t) :
    ∃ t' new, o' = .next t' ∧ t.SameWork t' ∧ s.Answers t new ∧ s'.Answers t' new := by
  cases h with
  | next work answers answers' => cases ho; exact ⟨_, _, rfl, work, answers, answers'⟩
  | fault => cases ho
  | refused => cases ho

theorem Alike.fault_inv {f : Fault} (ho : o = .fault f) : o' = .fault f := by
  cases h with
  | next => cases ho
  | fault => exact ho
  | refused => cases ho

theorem Alike.refused_inv {q : Refusal} (ho : o = .refused q) : o' = .refused q := by
  cases h with
  | next => cases ho
  | fault => cases ho
  | refused => exact ho

end Alike

/-- The step of a failed request leaves the session without it, but for its reply and its report (R77). -/
theorem State.SameWork.of_userError (s : State) (rest : List Request) (e : UserError) :
    State.SameWork { s with pending := rest } { s.deliver (.error e) with pending := rest } where
  pending := rfl
  words := by rw [State.deliver_words, Reply.emitted_error, List.append_nil]
  pos := s.deliver_pos (.error e)
  regs := s.deliver_regs (.error e)

/-- Settles O47: after the failed request's step the two runs do the same work, and what is answered and reported later
comes after what was answered and reported before. -/
theorem failedRequestLeavesOnlyReplyAndReport : Obligations.FailedRequestLeavesOnlyReplyAndReport := by
  unfold Obligations.FailedRequestLeavesOnlyReplyAndReport
  intro cfg s r rest e n hv hp hr
  have halike := runWith_alike cfg n (.of_userError s rest e)
  rw [← runWith_succ_next n (stepWith_serve_ok hv hp hr)] at halike
  refine ⟨fun u hu => ?next, fun _ => halike.fault_inv, fun _ => halike.refused_inv⟩
  case next =>
    obtain ⟨t, new, ht, work, without, after⟩ := halike.next_inv hu
    have failed : s.Answers t (.error e :: new) := (State.Answers.of_deliver s (.error e) rest).trans after
    exact ⟨t, ht, work.words, work.regs, work.pos, work.pending, failed.callback.trans without.callback.symm,
      ⟨new, without.replies, failed.replies⟩, ⟨new.filterMap Reply.userError, without.errors, failed.errors⟩⟩

/-- Settles O48: sessions with different callbacks do the same work and are given the same replies. -/
theorem callbackOutcomeChangesNothing : Obligations.CallbackOutcomeChangesNothing := by
  unfold Obligations.CallbackOutcomeChangesNothing
  intro cfg s o n
  have hsame : s.SameWork { s with callback := o } := ⟨rfl, rfl, rfl, rfl⟩
  have halike := runWith_alike cfg n hsame
  refine ⟨fun t ht => ?next, fun _ => halike.fault_inv, fun _ => halike.refused_inv⟩
  case next =>
    obtain ⟨t', new, ht', work, answers, answers'⟩ := halike.next_inv ht
    exact ⟨t', ht', work.words, answers'.replies.trans answers.replies.symm, work.pending, work.regs, work.pos⟩

end Sys2Proof.Machine
end

section
/-! Reset and the refusal of a configuration (70_reset_and_hazards.md R85 to R87). -/

namespace Sys2Proof.Machine

/-! ### An invalid configuration -/

/-- Under a configuration that is not valid nothing is processed, neither a request nor a word (R87; log 14). -/
theorem stepWith_of_not_valid {cfg : Config} (s : State) (hv : ¬ cfg.valid = true) :
    stepWith cfg s = .refused .invalidConfiguration := by
  rw [stepWith, if_neg hv]

/-- Under a valid configuration a step refuses one thing only, a word at the position, by itself (R68). -/
theorem stepWith_refused {cfg : Config} {s : State} {q : Refusal} (hv : cfg.valid = true)
    (h : stepWith cfg s = .refused q) : ∃ w, s.words[s.pos]? = some w ∧ q = .otherCode w := by
  cases hp : s.pending with
  | cons r rest =>
    cases hr : serve cfg r with
    | ok reply => rw [stepWith_serve_ok hv hp hr] at h; cases h
    | error f => rw [stepWith_serve_error hv hp hr] at h; cases h
  | nil =>
    cases hw : s.words[s.pos]? with
    | none => rw [stepWith_of_length_le hv hp (List.getElem?_eq_none_iff.mp hw)] at h; cases h
    | some w =>
      cases hm : hasMeaning cfg w with
      | true =>
        obtain ⟨t, ht⟩ := stepWith_of_hasMeaning hv hp hw hm
        rw [ht] at h
        cases h
      | false =>
        rw [stepWith_of_not_hasMeaning hv hp hw hm] at h
        cases h
        exact ⟨w, rfl, rfl⟩

/-- Settles O2: a valid configuration's step refuses a word at most, any other configuration's step the
configuration. -/
theorem equalCodesAreRefused : Obligations.EqualCodesAreRefused := by
  unfold Obligations.EqualCodesAreRefused
  intro cfg s
  rw [← Config_valid_iff]
  refine ⟨fun h hv => ?valid, stepWith_of_not_valid s⟩
  case valid =>
    obtain ⟨w, -, hq⟩ := stepWith_refused hv h
    cases hq

/-! ### Reset -/

theorem State.finished_iff {s : State} : s.finished = true ↔ s.pending = [] ∧ s.words.length ≤ s.pos := by
  simp [State.finished]

/-- A finished session is at the end of its run (R67; log 6). -/
theorem stepWith_of_finished {cfg : Config} {s : State} (hv : cfg.valid = true) (h : s.finished = true) :
    stepWith cfg s = .fault .runEnded := by
  obtain ⟨hp, hend⟩ := State.finished_iff.mp h
  exact stepWith_of_length_le hv hp hend

/-- Reset has nothing to serve and no word to run (log 3). -/
theorem State.reset_finished : State.reset.finished = true :=
  State.finished_iff.mpr ⟨rfl, Nat.le_refl 0⟩

/-- No reply has been delivered at reset, and the sink and the reports are as empty as what they are made of. -/
theorem State.Inv.reset : State.reset.Inv :=
  ⟨Nat.le_refl 0, rfl, rfl⟩

/-- Settles O54: the fields are those `State.reset` is built with, and a finished session's step finds the run over. -/
theorem resetMeetsSessionInvariant : Obligations.ResetMeetsSessionInvariant := by
  unfold Obligations.ResetMeetsSessionInvariant
  have hrun : step State.reset = .fault .runEnded := stepWith_of_finished Config_umDefault_valid State.reset_finished
  exact ⟨State.Inv.reset, rfl, rfl, rfl, rfl, rfl, rfl, rfl, State.reset_finished, hrun⟩

end Sys2Proof.Machine
end

section
/-! Which instruction terms a meaning refuses: those with an operand that no field holds (log 10). -/

namespace Sys2Proof.Machine

/-- A three-register instruction with a register that does not exist is refused. -/
theorem threeRegister_refused (f : Word → Word → Word → Word) {a b c : Nat} (s : State)
    (h : (registerFits a && registerFits b && registerFits c) = false) :
    threeRegister f a b c s = .refused .illFormedOperand :=
  if_neg (Bool.eq_false_iff.mp h)

/-- An immediate load with an operand that does not fit is refused. -/
theorem immediateLoad_refused {a imm : Nat} (s : State) (h : (registerFits a && immediateFits imm) = false) :
    immediateLoad a imm s = .refused .illFormedOperand :=
  if_neg (Bool.eq_false_iff.mp h)

/-- Every ill-formed instruction is refused, the counterpart of `exec_exists`. -/
theorem exec_refused {i : Instr} (s : State) (hw : i.wellFormed = false) : exec i s = .refused .illFormedOperand := by
  cases i with
  | cmov a b c => exact threeRegister_refused conditionalMove s hw
  | add a b c => exact threeRegister_refused (fun _ x y => addWord x y) s hw
  | nand a b c => exact threeRegister_refused (fun _ x y => nandWord x y) s hw
  | loadval a imm => exact immediateLoad_refused s hw

/-- Settles O36: a meaning completes on a well-formed instruction and refuses an ill-formed one, and no outcome is both
a next state and a refusal. -/
theorem onlyIllFormedInstructionsAreRefused : Obligations.OnlyIllFormedInstructionsAreRefused := by
  unfold Obligations.OnlyIllFormedInstructionsAreRefused
  intro i s
  cases hw : i.wellFormed with
  | true =>
    obtain ⟨t, ht⟩ := exec_exists s hw
    simp [ht]
  | false => simp [exec_refused s hw]

end Sys2Proof.Machine
end
